-- ==== Sys2Proof/Word.lean ====
section
/-!
DEFINITION. The widths of the machine's words (spec/00_scope.md R10, R11).
-/

namespace Sys2Proof

/-- A byte of the program buffer, an unsigned value 0-255 (R11). -/
abbrev Byte := BitVec 8

/-- LOAD's immediate, 16 bits (R10). -/
abbrev Half := BitVec 16

/-- A register value: the two's-complement pattern of an `i32` (R10, R11; log entry 10). Its value as a signed
integer is `BitVec.toInt`. -/
abbrev Word := BitVec 32

end Sys2Proof
end

