-- ==== Sys2Proof/Config.lean ====
section
/-!
DEFINITION. The implementation parameters of spec/00_scope.md R10, as one record of plain data. A model takes them as
arguments, so a state carries them (log entry 1) and a statement about every state holds under every setting. Their
defaults stand in Sys2Proof/Decode.lean and Sys2Proof/Machine/Params.lean.
-/

namespace Sys2Proof

/-- The closed set of the 17 named opcodes (R3). ILLEGAL is no opcode of its own: it stands for every unmapped byte. -/
inductive Opcode where
  | load | add | sub | mul | div | jmp | jmpf | jmpb
  | eq | neq | lt | gt | ltq | gtq | jeq | jneq | hlt
deriving DecidableEq, Repr

/-- Every named opcode, in the order of R3. -/
def Opcode.all : List Opcode :=
  [.load, .add, .sub, .mul, .div, .jmp, .jmpf, .jmpb, .eq, .neq, .lt, .gt, .ltq, .gtq, .jeq, .jneq, .hlt]

/-- An opcode's arity class, which fixes its operand layout (spec/30_encoding.md R60). -/
inductive ArityClass where
  /-- Format F0: the opcode byte alone. -/
  | arity0
  /-- Format FL: a register and a two-byte immediate. -/
  | arity2
  /-- Format F3: three register slots. -/
  | arity3
deriving DecidableEq, Repr

/-- The parameter OPCODE_MAP (R10, R64): the opcode at position `n` of the list has the byte value `n`; a byte value past
the end of the list is unmapped. -/
abbrev OpcodeMap := List Opcode

/-- The parameter LOAD_IMM_EXT (R10): how LOAD widens its immediate. -/
inductive ImmExt where
  | sign
  | zero
deriving DecidableEq, Repr

/-- The open parameters of R10. -/
structure Config where
  /-- OPCODE_MAP: the byte value of each opcode. -/
  opcodeMap : OpcodeMap
  /-- LOAD_IMM_EXT: sign or zero extension of LOAD's immediate. -/
  loadImmExt : ImmExt
  /-- PC_BITS: the width of the program counter. -/
  pcBits : Nat
  /-- MAX_PROGRAM_LEN: the capacity of the program buffer, in bytes. -/
  maxProgramLen : Nat
deriving DecidableEq, Repr

end Sys2Proof
end

