-- ==== Sys2Proof/Syntax.lean ====
section
/-!
DEFINITION. The instructions: one constructor per row of spec/opcode_table.json.
-/

namespace Sys2Proof

/-- An instruction as decoded (spec/30_encoding.md R60-R63, R66). A slot is the operand byte as it stands in the buffer,
0-255: which slots an instruction uses is R66, and a used slot of 32 or more faults when the instruction executes (R67).
Unused slots are kept, so that no bit of an encoding is dropped. -/
inductive Instr where
  /-- LOAD: `s1` the destination register, `imm` the 16-bit immediate (spec/41_load.md R110). -/
  | load (s1 : Byte) (imm : Half)
  /-- ADD (spec/42_arithmetic.md R121). -/
  | add (s1 s2 s3 : Byte)
  /-- SUB (R122). -/
  | sub (s1 s2 s3 : Byte)
  /-- MUL (R123). -/
  | mul (s1 s2 s3 : Byte)
  /-- DIV (R124). -/
  | div (s1 s2 s3 : Byte)
  /-- JMP, absolute (spec/43_jumps.md R140). -/
  | jmp (s1 s2 s3 : Byte)
  /-- HLT (spec/46_halt.md R170). -/
  | hlt
  /-- JMPF, relative forward (R141). -/
  | jmpf (s1 s2 s3 : Byte)
  /-- JMPB, relative backward (R142). -/
  | jmpb (s1 s2 s3 : Byte)
  /-- EQ (spec/44_compare.md R151). -/
  | eq (s1 s2 s3 : Byte)
  /-- NEQ (R152). -/
  | neq (s1 s2 s3 : Byte)
  /-- LT (R153). -/
  | lt (s1 s2 s3 : Byte)
  /-- GT (R154). -/
  | gt (s1 s2 s3 : Byte)
  /-- LTQ (R155). -/
  | ltq (s1 s2 s3 : Byte)
  /-- GTQ (R156). -/
  | gtq (s1 s2 s3 : Byte)
  /-- JEQ (spec/45_conditional_jumps.md R160). -/
  | jeq (s1 s2 s3 : Byte)
  /-- JNEQ (R161). -/
  | jneq (s1 s2 s3 : Byte)
  /-- ILLEGAL: the unmapped opcode byte `op` (spec/40_engine_cycle.md R94). -/
  | illegal (op : Byte)
deriving DecidableEq, Repr

end Sys2Proof
end

