-- ==== Sys2Proof/WellFormed.lean ====
section
/-!
DEFINITION. What the spec asks of an opcode map, of the parameters and of a decoded instruction.
-/

namespace Sys2Proof

/-- An opcode map as spec/30_encoding.md R64 and R65 ask: a bijection between the 17 opcodes and the byte values 0-16, with
the three values that the source fixes (6 = HLT, 7 = JMPF, 8 = JMPB; spec/00_scope.md R10). -/
def OpcodeMap.wf (m : OpcodeMap) : Bool :=
  m.length == 17 && decide m.Nodup && Opcode.all.all (fun k => m.contains k)
    && m[6]? == some .hlt && m[7]? == some .jmpf && m[8]? == some .jmpb

/-- Parameters as R10 and spec/10_state.md R29 ask: a well-formed opcode map, and a capacity below 2^PC_BITS. -/
def Config.wf (c : Config) : Bool :=
  OpcodeMap.wf c.opcodeMap && decide (c.maxProgramLen < 2 ^ c.pcBits)

/-- A decoded instruction as R71 asks: ILLEGAL carries a byte value of 17 or more. The operand bytes of every other
instruction are never reserved. -/
def Instr.wf : Instr → Bool
  | .illegal op => decide (17 ≤ op.toNat)
  | _ => true

end Sys2Proof
end

