-- ==== Sys2Proof/Decode.lean ====
section
/-!
DEFINITION. The instruction encoding of spec/30_encoding.md: the default opcode map, the decoder (total on any bytes), the
encoder, and the reading of a row of spec/opcode_table.json.
-/

namespace Sys2Proof

/-! ## The opcode map -/

/-- The default OPCODE_MAP of R64, byte values 0 to 16 in order (log entry 2). -/
def OpcodeMap.default : OpcodeMap :=
  [.load, .add, .sub, .mul, .div, .jmp, .hlt, .jmpf, .jmpb, .eq, .neq, .lt, .gt, .ltq, .gtq, .jeq, .jneq]

/-- An opcode's arity class (R60). -/
def Opcode.arity : Opcode → ArityClass
  | .hlt => .arity0
  | .load => .arity2
  | .add | .sub | .mul | .div | .jmp | .jmpf | .jmpb | .eq | .neq | .lt | .gt | .ltq | .gtq | .jeq | .jneq => .arity3

/-- The bytes of an instruction of a class, the opcode byte included (R60). -/
def ArityClass.length : ArityClass → Nat
  | .arity0 => 1
  | .arity2 => 4
  | .arity3 => 4

/-- The opcode that a byte selects; `none` is ILLEGAL (R65, R71). -/
def decodeOpcode (m : OpcodeMap) (b : Byte) : Option Opcode :=
  m[b.toNat]?

/-- The byte value that the map assigns to an opcode (R65). -/
def encodeOpcode (m : OpcodeMap) (k : Opcode) : Byte :=
  BitVec.ofNat 8 (m.idxOf k)

/-! ## The decoder -/

/-- Why bytes are no whole instruction. -/
inductive DecodeError where
  /-- There is no byte to read an opcode from. -/
  | noByte
  /-- The opcode is LOAD or of arity 3 and fewer than four bytes are left (spec/40_engine_cycle.md R95). -/
  | truncated
deriving DecidableEq, Repr

/-- LOAD's immediate from its two bytes, the first in bits 15:8 (R68; spec/20_memory.md R40). -/
def immOfBytes (hi lo : Byte) : Half :=
  hi ++ lo

/-- The instruction of an opcode and its three operand bytes (R62, R63). HLT has no operand, and ignores them. -/
def instrOf (k : Opcode) (b1 b2 b3 : Byte) : Instr :=
  match k with
  | .load => .load b1 (immOfBytes b2 b3)
  | .add => .add b1 b2 b3
  | .sub => .sub b1 b2 b3
  | .mul => .mul b1 b2 b3
  | .div => .div b1 b2 b3
  | .jmp => .jmp b1 b2 b3
  | .jmpf => .jmpf b1 b2 b3
  | .jmpb => .jmpb b1 b2 b3
  | .eq => .eq b1 b2 b3
  | .neq => .neq b1 b2 b3
  | .lt => .lt b1 b2 b3
  | .gt => .gt b1 b2 b3
  | .ltq => .ltq b1 b2 b3
  | .gtq => .gtq b1 b2 b3
  | .jeq => .jeq b1 b2 b3
  | .jneq => .jneq b1 b2 b3
  | .hlt => .hlt

/-- An opcode's operand bytes consumed from the front of `bs`, and the bytes left (R60, R69, R70). -/
def decodeOperands (k : Opcode) (bs : List Byte) : Except DecodeError (Instr × List Byte) :=
  match k.arity with
  | .arity0 => .ok (instrOf k 0 0 0, bs)
  | .arity2 | .arity3 =>
    match bs with
    | b1 :: b2 :: b3 :: rest => .ok (instrOf k b1 b2 b3, rest)
    | _ => .error .truncated

/-- The instruction at the front of `bs`, and the bytes after it (R65, R69). ILLEGAL consumes its one byte (R71). -/
def decode (m : OpcodeMap) (bs : List Byte) : Except DecodeError (Instr × List Byte) :=
  match bs with
  | [] => .error .noByte
  | op :: rest =>
    match decodeOpcode m op with
    | none => .ok (.illegal op, rest)
    | some k => decodeOperands k rest

/-! ## The encoder -/

/-- The opcode of an instruction; ILLEGAL has none (R75). -/
def Instr.opcode : Instr → Option Opcode
  | .load _ _ => some .load
  | .add _ _ _ => some .add
  | .sub _ _ _ => some .sub
  | .mul _ _ _ => some .mul
  | .div _ _ _ => some .div
  | .jmp _ _ _ => some .jmp
  | .hlt => some .hlt
  | .jmpf _ _ _ => some .jmpf
  | .jmpb _ _ _ => some .jmpb
  | .eq _ _ _ => some .eq
  | .neq _ _ _ => some .neq
  | .lt _ _ _ => some .lt
  | .gt _ _ _ => some .gt
  | .ltq _ _ _ => some .ltq
  | .gtq _ _ _ => some .gtq
  | .jeq _ _ _ => some .jeq
  | .jneq _ _ _ => some .jneq
  | .illegal _ => none

/-- The operand bytes of an instruction, in buffer order (R61-R63). -/
def Instr.operandBytes : Instr → List Byte
  | .load s1 imm => [s1, imm.extractLsb' 8 8, imm.extractLsb' 0 8]
  | .add s1 s2 s3 | .sub s1 s2 s3 | .mul s1 s2 s3 | .div s1 s2 s3 => [s1, s2, s3]
  | .jmp s1 s2 s3 | .jmpf s1 s2 s3 | .jmpb s1 s2 s3 => [s1, s2, s3]
  | .eq s1 s2 s3 | .neq s1 s2 s3 | .lt s1 s2 s3 | .gt s1 s2 s3 | .ltq s1 s2 s3 | .gtq s1 s2 s3 => [s1, s2, s3]
  | .jeq s1 s2 s3 | .jneq s1 s2 s3 => [s1, s2, s3]
  | .hlt => []
  | .illegal _ => []

/-- The bytes of an instruction (R61-R63). The encoder refuses ILLEGAL, which has no byte value to assign (R75). -/
def encode (m : OpcodeMap) (i : Instr) : Option (List Byte) :=
  match i.opcode with
  | some k => some (encodeOpcode m k :: i.operandBytes)
  | none => none

/-- The bytes an instruction is fetched from: `encode`'s, and for ILLEGAL the one unmapped byte itself (R71). -/
def Instr.bytes (m : OpcodeMap) (i : Instr) : List Byte :=
  match i with
  | .illegal op => [op]
  | _ => (encode m i).getD []

/-- The bytes an instruction takes in the buffer: 1 or 4 (R60, R69). -/
def Instr.length (i : Instr) : Nat :=
  match i.opcode with
  | some k => k.arity.length
  | none => 1

/-! ## The rows of spec/opcode_table.json -/

/-- The four bytes, from the lowest offset up, of a table row's number `w` of `nbits` bits: the table's bits 31:24 are the
byte at a (the opcode) and 7:0 the byte at a+3, so the number's most significant byte comes first (R62; log entry 12).
The bytes after the row's own are 0. -/
def tableBytes (nbits w : Nat) : List Byte :=
  [0, 1, 2, 3].map fun k => if 8 * (k + 1) ≤ nbits then BitVec.ofNat 8 (w >>> (nbits - 8 * (k + 1))) else 0

/-- The instruction the decoder reads, under the default opcode map, from a table row's number. -/
def decodeTableWord (nbits w : Nat) : Option Instr :=
  match decode OpcodeMap.default (tableBytes nbits w) with
  | .ok (i, _) => some i
  | .error _ => none

end Sys2Proof
end

