-- ==== Sys2Proof/Machine/Params.lean ====
section
/-!
DEFINITION. The default values of the parameters of spec/00_scope.md R10.
-/

namespace Sys2Proof

/-- R10's defaults: the opcode map of spec/30_encoding.md R64, sign extension, a 64-bit program counter, and a capacity of
2^PC_BITS - 1 bytes (log entries 2, 3, 4). -/
def Config.default : Config where
  opcodeMap := OpcodeMap.default
  loadImmExt := .sign
  pcBits := 64
  maxProgramLen := 2 ^ 64 - 1

end Sys2Proof
end

