-- ==== Sys2Proof/Machine/State.lean ====
section
/-!
DEFINITION. The engine's state (spec/10_state.md R20), the ways a step ends (spec/40_engine_cycle.md R91), and the state
after reset (spec/70_reset_and_hazards.md R200).
-/

namespace Sys2Proof.Machine

/-- The six faults of spec/60_exceptions.md R180, each with the info that rule records and, last, the address of the
faulting instruction. A fault changes nothing (R183): the state after it is the state the step began in, the host is the
handler, and the host may step again (R184; spec/40_engine_cycle.md R103). A fault is this hardware's own outcome of a step;
no constructor here stands for something the model leaves out. -/
inductive Fault where
  /-- Code 1, raised by DIV when the divisor is 0. The spec's own fault (R125): safe. -/
  | divideByZero (addr : Nat)
  /-- Code 2, raised by every instruction with a used slot whose byte `index` is 32-255. The spec's own (R96): safe. -/
  | registerOutOfRange (index : Byte) (addr : Nat)
  /-- Code 3, raised by JMPF and JMPB when the exact target is below 0. The spec's own (R141, R142): safe. -/
  | pcUnderflow (target : Int) (addr : Nat)
  /-- Code 4, raised by JMP, and by JEQ and JNEQ when taken, when the register holds a negative value. The spec's own
  decision (R140, R160): safe. -/
  | negativeJumpTarget (value : Word) (addr : Nat)
  /-- Code 5, raised by the step when a four-byte instruction at `addr` runs past the buffer's end. The spec's own decision
  (R95): safe. -/
  | truncatedInstruction (addr : Nat)
  /-- Code 6, raised by every jump whose target is 2^PC_BITS or more. The spec's own decision (R140-R142, R160): safe. -/
  | pcOverflow (target : Int) (addr : Nat)
deriving DecidableEq, Repr

/-- Why a step has no meaning. -/
inductive Refusal where
  /-- Raised by an arm of `exec` whose instruction has no meaning yet. No arm raises it: every instruction has its meaning.
  Safe: nothing can be proved of the instruction's effect. -/
  | notModelled (mnemonic : String)
deriving DecidableEq, Repr

/-- The three halts of R181, which end a run without a fault. -/
inductive HaltReason where
  /-- H1: HLT executed. -/
  | hlt
  /-- H2: the program counter was at or beyond the buffer's length. -/
  | endOfBuffer
  /-- H3: the opcode byte `op` is unmapped. -/
  | illegal (op : Byte)
deriving DecidableEq, Repr

/-- The outcome a step reports to the host (spec/40_engine_cycle.md R91). -/
inductive Report where
  /-- The instruction executed and the run goes on. -/
  | continued
  /-- The run ends with a halt. -/
  | halted (reason : HaltReason)
  /-- The run ends with a fault. -/
  | faulted (fault : Fault)
deriving DecidableEq, Repr

/-- Bytes by offset, in one canonical form (`Memory.wf`, Sys2Proof/Machine/Ops.lean): offsets strictly rising, and no entry
equal to what an unlisted offset reads as. -/
abbrev Memory := List Host.Cell

/-- The engine's state. -/
structure State where
  /-- The register file: 32 signed 32-bit registers (R22). -/
  x : Vector Word 32
  /-- The program counter, a natural number below 2^PC_BITS (R26). -/
  pc : Nat
  /-- The remainder register (R30, R31). -/
  rem : Word
  /-- The equality flag (R32). -/
  eqf : Bool
  /-- The program buffer's bytes (R36). -/
  prog : Memory
  /-- The program buffer's length in bytes (spec/00_scope.md R12). -/
  len : Nat
  /-- The model's own field: the parameters of R10, which no step changes (log entry 1). -/
  cfg : Config
  /-- The model's own field: what the last step reported (R91), which no step reads (log entry 5). -/
  report : Option Report
deriving DecidableEq, Repr

/-- What a step answers. -/
abbrev Result := Host.Outcome State Fault Refusal

/-- The host's `create()` under the given parameters (spec/40_engine_cycle.md R100): the reset state of R200. -/
def State.create (cfg : Config) : State where
  x := Vector.replicate 32 0
  pc := 0
  rem := 0
  eqf := false
  prog := []
  len := 0
  cfg := cfg
  report := none

/-- The machine right after reset, which is creation (R200, R201), with the default parameters of R10. -/
def State.reset : State :=
  State.create Config.default

end Sys2Proof.Machine
end

