-- ==== Sys2Proof/Machine/Ops.lean ====
section
/-!
DEFINITION. The named operations over memory, registers and the program counter, and the three ways a step ends:
continuing, halting, and raising a fault.
-/

namespace Sys2Proof.Machine

/-! ## Memory -/

/-- What an offset that the list does not name reads as. Below the buffer's length every offset holds an appended byte
(spec/20_memory.md R44); an appended 0 is not listed (log entry 8). Offsets at or above the length hold no byte:
`State.progByte` says so. -/
def Memory.unlisted : Byte := 0

/-- The byte listed at offset `a`. -/
def Memory.read : Memory → Nat → Byte
  | [], _ => Memory.unlisted
  | c :: m, a => if c.1 = a then c.2 else Memory.read m a

/-- `m` with the byte at offset `a` replaced by `b`, in the canonical form. -/
def Memory.write : Memory → Nat → Byte → Memory
  | [], a, b => if b = Memory.unlisted then [] else [(a, b)]
  | c :: m, a, b =>
    if a < c.1 then
      if b = Memory.unlisted then c :: m else (a, b) :: c :: m
    else if a = c.1 then
      if b = Memory.unlisted then m else (a, b) :: m
    else c :: Memory.write m a b

/-- The canonical form: offsets strictly rising, and no entry equal to what an unlisted offset reads as. -/
abbrev Memory.wf (m : Memory) : Prop :=
  m.Pairwise (fun c d => c.1 < d.1) ∧ ∀ c ∈ m, c.2 ≠ Memory.unlisted

/-- `ProgByte(a)` (spec/00_scope.md R12): the byte at offset `a` of the program buffer, which is there for `a < len`. -/
def State.progByte (s : State) (a : Nat) : Option Byte :=
  if a < s.len then some (Memory.read s.prog a) else none

/-- The buffer with byte `b` at offset `a`, grown to hold that offset where it does not yet. -/
def State.placeByte (a : Nat) (b : Byte) (s : State) : State :=
  { s with prog := Memory.write s.prog a b, len := max s.len (a + 1) }

/-- The buffer with the bytes `bs` from offset `a` on. -/
def State.placeBytes : Nat → List Byte → State → State
  | _, [], s => s
  | a, b :: bs, s => State.placeBytes (a + 1) bs (State.placeByte a b s)

/-! ## Registers -/

/-- `x[i]` (R12; spec/10_state.md R22). -/
def State.reg (s : State) (r : Fin 32) : Word :=
  s.x[r.val]

/-- `x[i] <- v` (R12). Every register keeps what is written: none is hard-wired (R22). -/
def State.setReg (r : Fin 32) (v : Word) (s : State) : State :=
  { s with x := s.x.set r.val v }

/-- `rem <- v` (R12). -/
def State.setRem (v : Word) (s : State) : State :=
  { s with rem := v }

/-- `eqf <- b` (R12). -/
def State.setEqf (b : Bool) (s : State) : State :=
  { s with eqf := b }

/-! ## How a step ends -/

/-- `pc <- t; continue` (R12). -/
def continueAt (t : Nat) (s : State) : Result :=
  .next { s with pc := t, report := some .continued }

/-- `pc <- t; halt(reason)` (R12; spec/60_exceptions.md R181). A halt is not sticky: the next step starts at the program
counter it leaves (spec/40_engine_cycle.md R102). -/
def haltAt (reason : HaltReason) (t : Nat) (s : State) : Result :=
  .next { s with pc := t, report := some (.halted reason) }

/-- `raise Fault(kind)` (R12; R180, R183), the one way a fault is taken: the step ends with the fault, its info and the
faulting instruction's address, and the state is the one the step began in. No state is saved, no mode changes and there is
no vector (R183), so there is no return either: the host steps again (R185; log entry 6). -/
def raise (fault : Nat → Fault) (s : State) : Result :=
  .fault (fault s.pc)

/-- An absolute jump to the value `v` (spec/43_jumps.md R140; spec/45_conditional_jumps.md R160). -/
def absoluteJump (v : Word) (s : State) : Result :=
  if v.toInt < 0 then raise (.negativeJumpTarget v) s
  else if ((2 ^ s.cfg.pcBits : Nat) : Int) ≤ v.toInt then raise (.pcOverflow v.toInt) s
  else continueAt v.toInt.toNat s

/-- A relative jump to the exact target `t` (R141, R142). -/
def relativeJump (t : Int) (s : State) : Result :=
  if t < 0 then raise (.pcUnderflow t) s
  else if ((2 ^ s.cfg.pcBits : Nat) : Int) ≤ t then raise (.pcOverflow t) s
  else continueAt t.toNat s

end Sys2Proof.Machine
end

