-- ==== Sys2Proof/Machine/Operands.lean ====
section
/-!
DEFINITION. Operands: which slots an instruction uses, the register a slot names, the range check, the widening of LOAD's
immediate, and the integer arithmetic of spec/42_arithmetic.md R120.
-/

namespace Sys2Proof

/-- The used slots of an instruction, in the order in which the step checks them (spec/30_encoding.md R66;
spec/40_engine_cycle.md R96). -/
def Instr.usedSlots : Instr → List Byte
  | .load s1 _ => [s1]
  | .add s1 s2 s3 | .sub s1 s2 s3 | .mul s1 s2 s3 | .div s1 s2 s3 => [s1, s2, s3]
  | .jmp s1 _ _ | .jmpf s1 _ _ | .jmpb s1 _ _ => [s1]
  | .eq s1 s2 _ | .neq s1 s2 _ | .lt s1 s2 _ | .gt s1 s2 _ | .ltq s1 s2 _ | .gtq s1 s2 _ => [s1, s2]
  | .jeq s1 _ _ | .jneq s1 _ _ => [s1]
  | .hlt => []
  | .illegal _ => []

namespace Machine

/-- The register that a slot's byte names, if it is below 32 (R67; spec/10_state.md R24). -/
def regOf (b : Byte) : Option (Fin 32) :=
  if h : b.toNat < 32 then some ⟨b.toNat, h⟩ else none

/-- A used slot: go on with the register it names, or raise `Fault(RegisterOutOfRange)` with the byte (R96). An instruction
opens its used slots in the order s1, s2, s3 before it reads or writes anything. -/
def withReg (b : Byte) (s : State) (k : Fin 32 → Result) : Result :=
  match regOf b with
  | none => raise (.registerOutOfRange b) s
  | some r => k r

/-- LOAD's widening of its immediate (spec/41_load.md R110). -/
def widenImm (e : ImmExt) (imm : Half) : Word :=
  match e with
  | .sign => imm.signExtend 32
  | .zero => imm.setWidth 32

/-- `wrap32(z)`: the i32 congruent to `z` modulo 2^32 (spec/00_scope.md R12). -/
def wrap32 (z : Int) : Word :=
  BitVec.ofInt 32 z

/-- `tdiv(a, b)`: the quotient rounded toward zero (R120). -/
def tdiv (a b : Int) : Int :=
  Int.tdiv a b

/-- `trem(a, b)` (R120). -/
def trem (a b : Int) : Int :=
  a - b * tdiv a b

end Machine

end Sys2Proof
end

