-- ==== Sys2Proof/Machine/Arith.lean ====
section
/-!
DEFINITION. ADD, SUB, MUL and DIV (spec/42_arithmetic.md).
-/

namespace Sys2Proof.Machine

/-- The shape of ADD, SUB and MUL: the exact result of the two source registers, wrapped to 32 bits, into the destination
register. The sources are read before the destination is written (spec/40_engine_cycle.md R98). -/
def arith (f : Int → Int → Int) (s1 s2 s3 : Byte) (s : State) : Result :=
  withReg s1 s fun r1 => withReg s2 s fun r2 => withReg s3 s fun r3 =>
    continueAt (s.pc + 4) (s.setReg r3 (wrap32 (f (s.reg r1).toInt (s.reg r2).toInt)))

/-- ADD (R121). -/
def execAdd (s1 s2 s3 : Byte) (s : State) : Result :=
  arith (fun A B => A + B) s1 s2 s3 s

/-- SUB: the first operand minus the second (R122). -/
def execSub (s1 s2 s3 : Byte) (s : State) : Result :=
  arith (fun A B => A - B) s1 s2 s3 s

/-- MUL: the low 32 bits of the product (R123). -/
def execMul (s1 s2 s3 : Byte) (s : State) : Result :=
  arith (fun A B => A * B) s1 s2 s3 s

/-- DIV: the quotient into the destination register and the remainder into rem, both from the values read (R124, R128). A
zero divisor faults and writes nothing (R125, R127); -2^31 by -1 wraps (R126). -/
def execDiv (s1 s2 s3 : Byte) (s : State) : Result :=
  withReg s1 s fun r1 => withReg s2 s fun r2 => withReg s3 s fun r3 =>
    if (s.reg r2).toInt = 0 then raise .divideByZero s
    else
      continueAt (s.pc + 4)
        ((s.setReg r3 (wrap32 (tdiv (s.reg r1).toInt (s.reg r2).toInt))).setRem
          (wrap32 (trem (s.reg r1).toInt (s.reg r2).toInt)))

end Sys2Proof.Machine
end

