-- ==== Sys2Proof/Machine/Flags.lean ====
section
/-!
DEFINITION. The values the comparisons give the equality flag, the engine's only flag (spec/10_state.md R32, R33): the
column `CMP_k(A, B)` of spec/44_compare.md R150. Every comparison is signed.
-/

namespace Sys2Proof.Machine

/-- EQ: A = B. -/
def cmpEq (A B : Word) : Bool := decide (A.toInt = B.toInt)

/-- NEQ: A ≠ B. -/
def cmpNeq (A B : Word) : Bool := decide (A.toInt ≠ B.toInt)

/-- LT: A < B. -/
def cmpLt (A B : Word) : Bool := decide (A.toInt < B.toInt)

/-- GT: A > B. -/
def cmpGt (A B : Word) : Bool := decide (A.toInt > B.toInt)

/-- LTQ: A ≤ B. -/
def cmpLtq (A B : Word) : Bool := decide (A.toInt ≤ B.toInt)

/-- GTQ: A ≥ B. -/
def cmpGtq (A B : Word) : Bool := decide (A.toInt ≥ B.toInt)

end Sys2Proof.Machine
end

