-- ==== Sys2Proof/Machine/Compare.lean ====
section
/-!
DEFINITION. The six comparisons (spec/44_compare.md). s1 is the left operand, s2 the right; s3 is unused.
-/

namespace Sys2Proof.Machine

/-- The shape of the six comparisons: the equality flag gets the comparison of the two registers (R150). -/
def compareWith (cmp : Word → Word → Bool) (s1 s2 : Byte) (s : State) : Result :=
  withReg s1 s fun r1 => withReg s2 s fun r2 =>
    continueAt (s.pc + 4) (s.setEqf (cmp (s.reg r1) (s.reg r2)))

/-- EQ (R151). -/
def execEq (s1 s2 : Byte) (s : State) : Result :=
  compareWith cmpEq s1 s2 s

/-- NEQ (R152). -/
def execNeq (s1 s2 : Byte) (s : State) : Result :=
  compareWith cmpNeq s1 s2 s

/-- LT (R153). -/
def execLt (s1 s2 : Byte) (s : State) : Result :=
  compareWith cmpLt s1 s2 s

/-- GT (R154). -/
def execGt (s1 s2 : Byte) (s : State) : Result :=
  compareWith cmpGt s1 s2 s

/-- LTQ (R155). -/
def execLtq (s1 s2 : Byte) (s : State) : Result :=
  compareWith cmpLtq s1 s2 s

/-- GTQ (R156). -/
def execGtq (s1 s2 : Byte) (s : State) : Result :=
  compareWith cmpGtq s1 s2 s

end Sys2Proof.Machine
end

