-- ==== Sys2Proof/Machine/CondJump.lean ====
section
/-!
DEFINITION. JEQ and JNEQ (spec/45_conditional_jumps.md). Only s1 is used, and it is range-checked whether or not the jump is
taken; the flag is read and kept.
-/

namespace Sys2Proof.Machine

/-- The shape of JEQ and JNEQ: an absolute jump when `taken`, else the next instruction (R160). -/
def condJump (taken : Bool) (s1 : Byte) (s : State) : Result :=
  withReg s1 s fun r => if taken then absoluteJump (s.reg r) s else continueAt (s.pc + 4) s

/-- JEQ: taken when the equality flag is true (R160). -/
def execJeq (s1 : Byte) (s : State) : Result :=
  condJump s.eqf s1 s

/-- JNEQ: taken when the equality flag is false (R161). -/
def execJneq (s1 : Byte) (s : State) : Result :=
  condJump (!s.eqf) s1 s

end Sys2Proof.Machine
end

