-- ==== Sys2Proof/Machine/Halt.lean ====
section
/-!
DEFINITION. HLT (spec/46_halt.md) and ILLEGAL (spec/40_engine_cycle.md R94). Both consume one byte and halt the run; neither
touches a register, rem or the flag.
-/

namespace Sys2Proof.Machine

/-- HLT (R170). The notice of R171 is the reported outcome. -/
def execHlt (s : State) : Result :=
  haltAt .hlt (s.pc + 1) s

/-- ILLEGAL (R94): a halt that carries the unmapped byte, not a fault. -/
def execIllegal (op : Byte) (s : State) : Result :=
  haltAt (.illegal op) (s.pc + 1) s

end Sys2Proof.Machine
end

