-- ==== Sys2Proof/Machine/Jump.lean ====
section
/-!
DEFINITION. JMP, JMPF and JMPB (spec/43_jumps.md). Only s1 is used; s2 and s3 take any value.
-/

namespace Sys2Proof.Machine

/-- JMP: absolute, to the value in a register (R140). -/
def execJmp (s1 : Byte) (s : State) : Result :=
  withReg s1 s fun r => absoluteJump (s.reg r) s

/-- JMPF: relative forward, from the opcode's address plus 2 (R141; spec/90_conflicts.md C2). -/
def execJmpf (s1 : Byte) (s : State) : Result :=
  withReg s1 s fun r => relativeJump (((s.pc + 2 : Nat) : Int) + (s.reg r).toInt) s

/-- JMPB: relative backward, from the opcode's address plus 2 (R142; spec/90_conflicts.md C3). -/
def execJmpb (s1 : Byte) (s : State) : Result :=
  withReg s1 s fun r => relativeJump (((s.pc + 2 : Nat) : Int) - (s.reg r).toInt) s

end Sys2Proof.Machine
end

