-- ==== Sys2Proof/Machine/Load.lean ====
section
/-!
DEFINITION. LOAD (spec/41_load.md).
-/

namespace Sys2Proof.Machine

/-- LOAD: the immediate, widened as LOAD_IMM_EXT says, into the destination register (R110). -/
def execLoad (s1 : Byte) (imm : Half) (s : State) : Result :=
  withReg s1 s fun d => continueAt (s.pc + 4) (s.setReg d (widenImm s.cfg.loadImmExt imm))

end Sys2Proof.Machine
end

