-- ==== Sys2Proof/Machine/Dispatch.lean ====
section
/-!
DEFINITION. The instruction dispatcher: one arm per row of spec/opcode_table.json (spec/40_engine_cycle.md R97).
-/

namespace Sys2Proof.Machine

/-- What an instruction does in the state in which its step begins, the program counter at its opcode. -/
def exec (i : Instr) (s : State) : Host.Outcome State Fault Refusal :=
  match i with
  | .load s1 imm => Sys2Proof.Machine.execLoad s1 imm s
  | .add s1 s2 s3 => Sys2Proof.Machine.execAdd s1 s2 s3 s
  | .sub s1 s2 s3 => Sys2Proof.Machine.execSub s1 s2 s3 s
  | .mul s1 s2 s3 => Sys2Proof.Machine.execMul s1 s2 s3 s
  | .div s1 s2 s3 => Sys2Proof.Machine.execDiv s1 s2 s3 s
  | .jmp s1 _ _ => Sys2Proof.Machine.execJmp s1 s
  | .hlt => Sys2Proof.Machine.execHlt s
  | .jmpf s1 _ _ => Sys2Proof.Machine.execJmpf s1 s
  | .jmpb s1 _ _ => Sys2Proof.Machine.execJmpb s1 s
  | .eq s1 s2 _ => Sys2Proof.Machine.execEq s1 s2 s
  | .neq s1 s2 _ => Sys2Proof.Machine.execNeq s1 s2 s
  | .lt s1 s2 _ => Sys2Proof.Machine.execLt s1 s2 s
  | .gt s1 s2 _ => Sys2Proof.Machine.execGt s1 s2 s
  | .ltq s1 s2 _ => Sys2Proof.Machine.execLtq s1 s2 s
  | .gtq s1 s2 _ => Sys2Proof.Machine.execGtq s1 s2 s
  | .jeq s1 _ _ => Sys2Proof.Machine.execJeq s1 s
  | .jneq s1 _ _ => Sys2Proof.Machine.execJneq s1 s
  | .illegal op => Sys2Proof.Machine.execIllegal op s

end Sys2Proof.Machine
end

