-- ==== Sys2Proof/Machine/Fetch.lean ====
section
/-!
DEFINITION. Fetching an instruction's bytes from the program buffer (spec/40_engine_cycle.md R93, R95).
-/

namespace Sys2Proof.Machine

/-- The bytes at offsets `a`, `a + 1`, ... of the program buffer, at most `n` of them, up to the buffer's end. -/
def State.bytesFrom (s : State) : Nat → Nat → List Byte
  | 0, _ => []
  | n + 1, a =>
    match s.progByte a with
    | none => []
    | some b => b :: State.bytesFrom s n (a + 1)

/-- The bytes a step can consume: the longest instruction's, from the program counter. The decoder takes 1 or 4 of them; a
fetch has no side effect (spec/20_memory.md R42; log entry 14). -/
def fetchBytes (s : State) : List Byte :=
  s.bytesFrom 4 s.pc

/-- The instruction at the program counter, under the state's opcode map. -/
def fetch (s : State) : Except DecodeError Instr :=
  match decode s.cfg.opcodeMap (fetchBytes s) with
  | .ok (i, _) => .ok i
  | .error e => .error e

/-- A step that begins at or beyond the buffer's length: it reads no byte, writes no state and halts (R92). -/
def stepAtEnd (s : State) : Result :=
  haltAt .endOfBuffer s.pc s

/-- A step whose four-byte instruction runs past the buffer's end (R95). -/
def stepTruncated (s : State) : Result :=
  raise .truncatedInstruction s

end Sys2Proof.Machine
end

