-- ==== Sys2Proof/Machine/Step.lean ====
section
/-!
DEFINITION. The engine's one transition (spec/40_engine_cycle.md R90, R97).
-/

namespace Sys2Proof.Machine

/-- One step: fetch and decode at the program counter, then execute. -/
def step (s : State) : Host.Outcome State Fault Refusal :=
  match fetch s with
  | .ok i => exec i s
  | .error .noByte => stepAtEnd s
  | .error .truncated => stepTruncated s

/-- `s` with a table row's number stored as the bytes from the program counter on, where `step` fetches. It stands for the
host's appends before the step (log entry 13). -/
def State.withFetchWord (s : State) (nbits w : Nat) : State :=
  State.placeBytes s.pc (tableBytes nbits w) s

end Sys2Proof.Machine
end

