-- ==== Sys2Proof/Machine/Assembler.lean ====
section
/-!
DEFINITION. The encoder's contract, from one assembled line to bytes (spec/30_encoding.md R72-R76). The parser that makes a
line from text is outside the spec (spec/00_scope.md R7).
-/

namespace Sys2Proof

/-- An operand of an assembled line (R72). -/
inductive AsmOperand where
  /-- `$n`, a register index. Any natural number may stand here; the encoder fails above 255 (R74). -/
  | reg (n : Nat)
  /-- `#v`, an integer immediate, a signed 32-bit value (R73). -/
  | imm (v : Word)
  /-- A malformed token where a register or an immediate was expected (R75). -/
  | malformed
deriving DecidableEq, Repr

/-- One assembled line: an opcode, `none` being ILLEGAL, and its operands. -/
structure AsmLine where
  opcode : Option Opcode
  operands : List AsmOperand
deriving DecidableEq, Repr

/-- Why the encoder fails, emitting no bytes (R74, R75). -/
inductive EncodeError where
  | malformedToken
  | operandMismatch
  | registerAbove255
  | illegalOpcode
deriving DecidableEq, Repr

/-- Whether a line has the operand kinds and count of its opcode's class (R72). -/
def AsmLine.wf (l : AsmLine) : Bool :=
  match l.opcode with
  | none => false
  | some k =>
    match k.arity, l.operands with
    | .arity0, [] => true
    | .arity2, [.reg _, .imm _] => true
    | .arity3, [.reg _, .reg _, .reg _] => true
    | _, _ => false

/-- A register operand's byte: its index, or a failure above 255 (R74). -/
def regByte (n : Nat) : Except EncodeError Byte :=
  if n ≤ 255 then .ok (BitVec.ofNat 8 n) else .error .registerAbove255

/-- The low 16 bits of an immediate (R73): truncating, neither clamping nor failing. -/
def truncImm (v : Word) : Half :=
  v.setWidth 16

/-- The instruction an assembled line stands for (R72-R75). -/
def AsmLine.instr (l : AsmLine) : Except EncodeError Instr :=
  match l.opcode with
  | none => .error .illegalOpcode
  | some k =>
    if .malformed ∈ l.operands then .error .malformedToken
    else
      match k.arity, l.operands with
      | .arity0, [] => .ok (instrOf k 0 0 0)
      | .arity2, [.reg d, .imm v] => do
        let b ← regByte d
        return .load b (truncImm v)
      | .arity3, [.reg a, .reg b, .reg c] => do
        let b1 ← regByte a
        let b2 ← regByte b
        let b3 ← regByte c
        return instrOf k b1 b2 b3
      | _, _ => .error .operandMismatch

/-- The bytes of an assembled line under an opcode map (R72). -/
def assemble (m : OpcodeMap) (l : AsmLine) : Except EncodeError (List Byte) :=
  match l.instr with
  | .error e => .error e
  | .ok i =>
    match encode m i with
    | some bs => .ok bs
    | none => .error .illegalOpcode

/-! ## The notation of R14 and R76 -/

/-- An opcode's mnemonic, in the spec's spelling (R14). -/
def Opcode.mnemonic : Opcode → String
  | .load => "LOAD"
  | .add => "ADD"
  | .sub => "SUB"
  | .mul => "MUL"
  | .div => "DIV"
  | .jmp => "JMP"
  | .jmpf => "JMPF"
  | .jmpb => "JMPB"
  | .eq => "EQ"
  | .neq => "NEQ"
  | .lt => "LT"
  | .gt => "GT"
  | .ltq => "LTQ"
  | .gtq => "GTQ"
  | .jeq => "JEQ"
  | .jneq => "JNEQ"
  | .hlt => "HLT"

/-- An operand as written: `$n` or `#n`, in decimal (R76). -/
def AsmOperand.text : AsmOperand → Option String
  | .reg n => some ("$" ++ toString n)
  | .imm v => some ("#" ++ toString v.toInt)
  | .malformed => none

/-- A line as written: the mnemonic and its operands, separated by spaces (R76). -/
def AsmLine.text (l : AsmLine) : Option String := do
  let k ← l.opcode
  let ops ← l.operands.mapM AsmOperand.text
  return " ".intercalate (k.mnemonic :: ops)

end Sys2Proof
end

