-- ==== Sys2Proof/Machine/HostPort.lean ====
section
/-!
DEFINITION. The host's interface to the engine, each operation atomic and between steps (spec/40_engine_cycle.md R99-R103),
and the codes of the events it reports (spec/60_exceptions.md R180, R181).
-/

namespace Sys2Proof.Machine

/-! ## Feeding the buffer -/

/-- What `append_byte` returns (R100). -/
inductive AppendResult where
  | ok
  /-- `Refused(BufferFull)`: the buffer is at capacity, and nothing changed. -/
  | bufferFull
deriving DecidableEq, Repr

/-- `append_byte(b)` (R100; spec/20_memory.md R44). -/
def appendByte (b : Byte) (s : State) : AppendResult × State :=
  if s.len < s.cfg.maxProgramLen then (.ok, State.placeByte s.len b s) else (.bufferFull, s)

/-- The bytes appended one by one, up to the first refusal. -/
def appendBytes : List Byte → State → AppendResult × State
  | [], s => (.ok, s)
  | b :: bs, s =>
    match appendByte b s with
    | (.ok, t) => appendBytes bs t
    | (.bufferFull, t) => (.bufferFull, t)

/-! ## Reading and presetting -/

/-- `read_reg(i)` (R100). -/
def readReg (i : Fin 32) (s : State) : Word := s.reg i

/-- `read_pc()` (R100). -/
def readPc (s : State) : Nat := s.pc

/-- `read_rem()` (R100; spec/10_state.md R31). -/
def readRem (s : State) : Word := s.rem

/-- `read_eqf()` (R100). -/
def readEqf (s : State) : Bool := s.eqf

/-- `read_len()` (R100). -/
def readLen (s : State) : Nat := s.len

/-- The preset of a register (R101). -/
def presetReg (i : Fin 32) (v : Word) (s : State) : State := s.setReg i v

/-- The preset of the program counter, to any value in [0, 2^PC_BITS); the host has no other (R101; log entry 26). -/
def presetPc (t : Nat) (s : State) : Option State :=
  if t < 2 ^ s.cfg.pcBits then some { s with pc := t } else none

/-- The preset of the equality flag (R101). -/
def presetEqf (b : Bool) (s : State) : State := s.setEqf b

/-! ## Stepping and running -/

/-- `step()` as the host sees it: the outcome, and the state the engine is left in. A fault leaves the state as it was
(R183, R103). `none` only where the model gives the step no meaning, which no step does. -/
def hostStep (s : State) : Option (Report × State) :=
  match step s with
  | .next t =>
    match t.report with
    | some r => some (r, t)
    | none => none
  | .fault f => some (.faulted f, { s with report := some (.faulted f) })
  | .refused _ => none

/-- `run()` (R99) under `fuel` steps: the first outcome other than `Continue` and the state it leaves. `none` when the fuel
runs out, which is no end state (spec/92_eei_decisions.md D29). -/
def run : Nat → State → Option (Report × State)
  | 0, _ => none
  | fuel + 1, s =>
    match hostStep s with
    | some (.continued, t) => run fuel t
    | r => r

/-- The document's boolean for an outcome: true means the run must stop (R91). -/
def Report.stops : Report → Bool
  | .continued => false
  | .halted _ => true
  | .faulted _ => true

/-! ## Event codes -/

/-- A fault's code (R180). -/
def Fault.code : Fault → Nat
  | .divideByZero _ => 1
  | .registerOutOfRange _ _ => 2
  | .pcUnderflow _ _ => 3
  | .negativeJumpTarget _ _ => 4
  | .truncatedInstruction _ => 5
  | .pcOverflow _ _ => 6

/-- The address of the faulting instruction, which every fault reports (R180). -/
def Fault.addr : Fault → Nat
  | .divideByZero a => a
  | .registerOutOfRange _ a => a
  | .pcUnderflow _ a => a
  | .negativeJumpTarget _ a => a
  | .truncatedInstruction a => a
  | .pcOverflow _ a => a

/-- A halt's code (R181). -/
def HaltReason.code : HaltReason → String
  | .hlt => "H1"
  | .endOfBuffer => "H2"
  | .illegal _ => "H3"

end Sys2Proof.Machine
end

