-- ==== Sys2Proof/Machine/Reference.lean ====
section
/-!
DEFINITION. The step once more, as spec/40_engine_cycle.md R97 writes it: one function over the opcode and its three operand
bytes, with the execute rules of spec files 41 to 46 in line. It shares the state, the memory read, the opcode map and the
integer primitives of spec/00_scope.md R12 with the machine, and nothing else. `step` is the model; this text is what it is
compared with.
-/

namespace Sys2Proof.Machine.Reference

/-- `used_slots(k, s1, s2, s3)` (spec/30_encoding.md R66). -/
def usedSlots (k : Opcode) (s1 s2 s3 : Byte) : List Byte :=
  match k with
  | .hlt => []
  | .load | .jmp | .jmpf | .jmpb | .jeq | .jneq => [s1]
  | .eq | .neq | .lt | .gt | .ltq | .gtq => [s1, s2]
  | .add | .sub | .mul | .div => [s1, s2, s3]

/-- `x[b]` for an operand byte `b` that the range check has passed; past the file's end, 0. -/
def rx (s : State) (b : Byte) : Int :=
  (s.x[b.toNat]?.getD 0).toInt

/-- `x[b] <- v` for an operand byte `b` that the range check has passed; past the file's end, nothing. -/
def wx (s : State) (b : Byte) (v : Word) : State :=
  { s with x := s.x.setIfInBounds b.toNat v }

/-- `pc <- t; continue`. -/
def go (s : State) (t : Nat) : Result :=
  .next { s with pc := t, report := some .continued }

/-- The checks on an exact jump target and the jump (spec/43_jumps.md R140-R142): `neg` is the fault below 0. -/
def jump (s : State) (t : Int) (neg : Fault) : Result :=
  if t < 0 then .fault neg
  else if t ≥ 2 ^ s.cfg.pcBits then .fault (.pcOverflow t s.pc)
  else go s t.toNat

/-- `execute_*` (files 41 to 46), at opcode address `a`. -/
def execute (s : State) (k : Opcode) (a : Nat) (s1 s2 s3 : Byte) : Result :=
  let A := rx s s1
  let B := rx s s2
  let absolute := jump s A (.negativeJumpTarget (wrap32 A) a)
  match k with
  | .load =>
    let imm : Nat := s2.toNat * 256 + s3.toNat
    let v : Int := if s.cfg.loadImmExt = .sign ∧ 32768 ≤ imm then (imm : Int) - 65536 else imm
    go (wx s s1 (wrap32 v)) (a + 4)
  | .add => go (wx s s3 (wrap32 (A + B))) (a + 4)
  | .sub => go (wx s s3 (wrap32 (A - B))) (a + 4)
  | .mul => go (wx s s3 (wrap32 (A * B))) (a + 4)
  | .div =>
    if B = 0 then .fault (.divideByZero a)
    else go { wx s s3 (wrap32 (tdiv A B)) with rem := wrap32 (trem A B) } (a + 4)
  | .jmp => absolute
  | .jmpf => jump s ((a + 2 : Int) + A) (.pcUnderflow ((a + 2 : Int) + A) a)
  | .jmpb => jump s ((a + 2 : Int) - A) (.pcUnderflow ((a + 2 : Int) - A) a)
  | .eq => go { s with eqf := decide (A = B) } (a + 4)
  | .neq => go { s with eqf := decide (A ≠ B) } (a + 4)
  | .lt => go { s with eqf := decide (A < B) } (a + 4)
  | .gt => go { s with eqf := decide (A > B) } (a + 4)
  | .ltq => go { s with eqf := decide (A ≤ B) } (a + 4)
  | .gtq => go { s with eqf := decide (A ≥ B) } (a + 4)
  | .jeq => if s.eqf = true then absolute else go s (a + 4)
  | .jneq => if s.eqf = false then absolute else go s (a + 4)
  | .hlt => .next { s with pc := a + 1, report := some (.halted .hlt) }

/-- `step()` of R97. -/
def step (s : State) : Result :=
  let a := s.pc
  if a ≥ s.len then .next { s with report := some (.halted .endOfBuffer) }
  else
    let op := Memory.read s.prog a
    match decodeOpcode s.cfg.opcodeMap op with
    | none => .next { s with pc := a + 1, report := some (.halted (.illegal op)) }
    | some .hlt => .next { s with pc := a + 1, report := some (.halted .hlt) }
    | some k =>
      if s.len - a < 4 then .fault (.truncatedInstruction a)
      else
        let s1 := Memory.read s.prog (a + 1)
        let s2 := Memory.read s.prog (a + 2)
        let s3 := Memory.read s.prog (a + 3)
        match (usedSlots k s1 s2 s3).find? (fun b => decide (32 ≤ b.toNat)) with
        | some b => .fault (.registerOutOfRange b a)
        | none => execute s k a s1 s2 s3

end Sys2Proof.Machine.Reference
end

