-- ==== Sys2Proof/Safety.lean ====
section
/-!
DEFINITION. The terms claims use: the invariant of the engine's states, a clean launch, how a run ends, what an instruction
may write, and the clauses that every instruction rule of spec files 41 to 46 shares.
-/

namespace Sys2Proof

/-! ## What an instruction may write -/

/-- The slot that names an instruction's destination register (spec/30_encoding.md R66). -/
def Instr.destSlot : Instr → Option Byte
  | .load s1 _ => some s1
  | .add _ _ s3 | .sub _ _ s3 | .mul _ _ s3 | .div _ _ s3 => some s3
  | .jmp _ _ _ | .jmpf _ _ _ | .jmpb _ _ _ | .jeq _ _ _ | .jneq _ _ _ => none
  | .eq _ _ _ | .neq _ _ _ | .lt _ _ _ | .gt _ _ _ | .ltq _ _ _ | .gtq _ _ _ => none
  | .hlt => none
  | .illegal _ => none

/-- The instructions that write the equality flag: the six comparisons (spec/10_state.md R32). -/
def Instr.writesEqf : Instr → Bool
  | .eq _ _ _ | .neq _ _ _ | .lt _ _ _ | .gt _ _ _ | .ltq _ _ _ | .gtq _ _ _ => true
  | _ => false

/-- The instruction that writes the remainder register: DIV (R30). -/
def Instr.writesRem : Instr → Bool
  | .div _ _ _ => true
  | _ => false

namespace Machine

/-! ## States and runs -/

/-- The invariant of the engine's states: the parameters are well-formed (spec/00_scope.md R10; spec/10_state.md R29), the
buffer is in its canonical form and lists no offset at or above its length (spec/20_memory.md R44), the length is within the
capacity, and the program counter is below 2^PC_BITS (R26). -/
structure State.Inv (s : State) : Prop where
  cfg_wf : s.cfg.wf = true
  prog_wf : Memory.wf s.prog
  prog_below_len : ∀ c ∈ s.prog, c.1 < s.len
  len_le : s.len ≤ s.cfg.maxProgramLen
  pc_lt : s.pc < 2 ^ s.cfg.pcBits

/-- `CleanLaunch(P)` (spec/70_reset_and_hazards.md R204): registers, rem, eqf and pc as at reset, the buffer holding exactly
the bytes `P`, and no fault recorded. -/
structure CleanLaunch (P : List Byte) (s : State) : Prop where
  regs : ∀ r : Fin 32, s.reg r = 0
  rem : s.rem = 0
  eqf : s.eqf = false
  pc : s.pc = 0
  len : s.len = P.length
  bytes : ∀ a, s.progByte a = P[a]?
  noFault : ∀ f, s.report ≠ some (.faulted f)

/-- `run()` from `s` returns outcome `r` and leaves the engine in `t` (spec/40_engine_cycle.md R99). -/
def RunEnds (s : State) (r : Report) (t : State) : Prop :=
  ∃ fuel, run fuel s = some (r, t)

/-- The instruction `i` stands in the buffer from offset `a` on, under the state's opcode map. -/
def State.HoldsAt (s : State) (a : Nat) (i : Instr) : Prop :=
  ∀ k b, (i.bytes s.cfg.opcodeMap)[k]? = some b → s.progByte (a + k) = some b

/-- `n` steps lead from `s` to `t`, every one of them a next state and none of them executing an instruction of which `p`
holds. -/
def StepsAvoiding (p : Instr → Bool) : Nat → State → State → Prop
  | 0, s, t => t = s
  | n + 1, s, t => ∃ u, step s = .next u ∧ (∀ i, fetch s = .ok i → p i = false) ∧ StepsAvoiding p n u t

/-! ## The clauses every instruction rule shares -/

/-- The encoding and the truncation fault of a four-byte instruction, under every well-formed opcode map: its byte value by
default (spec/30_encoding.md R64), its layout (R62, R63), the bytes of its assembled line (R72, R74), and
`Fault(TruncatedInstruction)` where fewer than four bytes are left (spec/40_engine_cycle.md R95). -/
structure FourByteForm (byte : Byte) (k : Opcode) (mk : Byte → Byte → Byte → Instr) : Prop where
  byte_eq : encodeOpcode OpcodeMap.default k = byte
  decodes : ∀ m b1 b2 b3 rest, OpcodeMap.wf m = true →
    decode m (encodeOpcode m k :: b1 :: b2 :: b3 :: rest) = .ok (mk b1 b2 b3, rest)
  truncates : ∀ s : State, s.cfg.wf = true → s.progByte s.pc = some (encodeOpcode s.cfg.opcodeMap k) → s.len - s.pc < 4 →
    step s = .fault (.truncatedInstruction s.pc)

/-- The assembled line of an arity-3 instruction is its opcode byte and its three register bytes (R72, R74). -/
def AssemblesSlots (k : Opcode) : Prop :=
  ∀ m n1 n2 n3, n1 ≤ 255 → n2 ≤ 255 → n3 ≤ 255 →
    assemble m ⟨some k, [.reg n1, .reg n2, .reg n3]⟩ =
      .ok [encodeOpcode m k, BitVec.ofNat 8 n1, BitVec.ofNat 8 n2, BitVec.ofNat 8 n3]

/-- The range check of an instruction that uses slot s1 alone (spec/40_engine_cycle.md R96). -/
def ChecksSlot1 (mk : Byte → Byte → Byte → Instr) : Prop :=
  ∀ s s1 s2 s3, 32 ≤ s1.toNat → exec (mk s1 s2 s3) s = .fault (.registerOutOfRange s1 s.pc)

/-- The range check of an instruction that uses slots s1 and s2, in that order. -/
def ChecksSlots12 (mk : Byte → Byte → Byte → Instr) : Prop :=
  ∀ s s1 s2 s3,
    (32 ≤ s1.toNat → exec (mk s1 s2 s3) s = .fault (.registerOutOfRange s1 s.pc)) ∧
    (s1.toNat < 32 → 32 ≤ s2.toNat → exec (mk s1 s2 s3) s = .fault (.registerOutOfRange s2 s.pc))

/-- The range check of an instruction that uses all three slots, in the order s1, s2, s3. -/
def ChecksSlots123 (mk : Byte → Byte → Byte → Instr) : Prop :=
  ChecksSlots12 mk ∧
  ∀ s s1 s2 s3, s1.toNat < 32 → s2.toNat < 32 → 32 ≤ s3.toNat →
    exec (mk s1 s2 s3) s = .fault (.registerOutOfRange s3 s.pc)

/-- The rule of ADD, SUB and MUL: `op` is the exact operation of R121, R122 or R123. In range, the step completes with the
wrapped result in the destination register, the program counter 4 further, and nothing else changed. -/
structure ArithmeticRule (byte : Byte) (k : Opcode) (mk : Byte → Byte → Byte → Instr) (op : Int → Int → Int) : Prop where
  form : FourByteForm byte k mk
  assembles : AssemblesSlots k
  checks : ChecksSlots123 mk
  completes : ∀ (s : State) (r1 r2 r3 : Fin 32) (s1 s2 s3 : Byte), s1.toNat = r1 → s2.toNat = r2 → s3.toNat = r3 →
    exec (mk s1 s2 s3) s =
      .next { s with
        x := s.x.set r3.val (wrap32 (op (s.reg r1).toInt (s.reg r2).toInt)), pc := s.pc + 4, report := some .continued }

/-- The rule of the six comparisons: `cmp` is the relation of R150's table. In range, the step completes with the flag set
to the comparison of the two registers' signed values, the program counter 4 further, and nothing else changed, whatever
the unused third slot holds. -/
structure ComparisonRule (byte : Byte) (k : Opcode) (mk : Byte → Byte → Byte → Instr) (cmp : Int → Int → Prop) : Prop where
  form : FourByteForm byte k mk
  assembles : AssemblesSlots k
  checks : ChecksSlots12 mk
  completes : ∀ (s : State) (r1 r2 : Fin 32) (s1 s2 s3 : Byte), s1.toNat = r1 → s2.toNat = r2 →
    ∃ b : Bool, (b = true ↔ cmp (s.reg r1).toInt (s.reg r2).toInt) ∧
      exec (mk s1 s2 s3) s = .next { s with eqf := b, pc := s.pc + 4, report := some .continued }

/-- The rule of an unconditional relative jump: `target a v` is the exact target of R141 or R142 from address `a` with the
register value `v`. -/
structure RelativeJumpRule (byte : Byte) (k : Opcode) (mk : Byte → Byte → Byte → Instr) (target : Int → Int → Int) :
    Prop where
  form : FourByteForm byte k mk
  assembles : AssemblesSlots k
  checks : ChecksSlot1 mk
  completes : ∀ (s : State) (r : Fin 32) (s1 s2 s3 : Byte), s1.toNat = r → ∀ n : Nat, n < 2 ^ s.cfg.pcBits →
    target s.pc (s.reg r).toInt = n → exec (mk s1 s2 s3) s = .next { s with pc := n, report := some .continued }
  underflows : ∀ (s : State) (r : Fin 32) (s1 s2 s3 : Byte), s1.toNat = r → target s.pc (s.reg r).toInt < 0 →
    exec (mk s1 s2 s3) s = .fault (.pcUnderflow (target s.pc (s.reg r).toInt) s.pc)
  overflows : ∀ (s : State) (r : Fin 32) (s1 s2 s3 : Byte), s1.toNat = r →
    ((2 ^ s.cfg.pcBits : Nat) : Int) ≤ target s.pc (s.reg r).toInt →
    exec (mk s1 s2 s3) s = .fault (.pcOverflow (target s.pc (s.reg r).toInt) s.pc)

/-- An absolute jump by `mk` in state `s` to the register `r` (R140, R160): to the register's value where it is in
[0, 2^PC_BITS), and a fault where it is not. -/
structure AbsoluteJump (mk : Byte → Byte → Byte → Instr) (s : State) (r : Fin 32) (s1 s2 s3 : Byte) : Prop where
  completes : ∀ n : Nat, n < 2 ^ s.cfg.pcBits → (s.reg r).toInt = n →
    exec (mk s1 s2 s3) s = .next { s with pc := n, report := some .continued }
  negative : (s.reg r).toInt < 0 → exec (mk s1 s2 s3) s = .fault (.negativeJumpTarget (s.reg r) s.pc)
  overflows : ((2 ^ s.cfg.pcBits : Nat) : Int) ≤ (s.reg r).toInt →
    exec (mk s1 s2 s3) s = .fault (.pcOverflow (s.reg r).toInt s.pc)

/-- The rule of a conditional jump taken when the flag is `cond` (R160, R161). -/
structure ConditionalJumpRule (byte : Byte) (k : Opcode) (mk : Byte → Byte → Byte → Instr) (cond : Bool) : Prop where
  form : FourByteForm byte k mk
  assembles : AssemblesSlots k
  checks : ChecksSlot1 mk
  taken : ∀ (s : State) (r : Fin 32) (s1 s2 s3 : Byte), s1.toNat = r → s.eqf = cond → AbsoluteJump mk s r s1 s2 s3
  notTaken : ∀ (s : State) (r : Fin 32) (s1 s2 s3 : Byte), s1.toNat = r → s.eqf ≠ cond →
    exec (mk s1 s2 s3) s = .next { s with pc := s.pc + 4, report := some .continued }

end Machine

end Sys2Proof
end

