-- ==== Sys2Proof/Certificates/Slice0/Obligations.lean ====
section
/-!
DEFINITION. The statements for the provers.
-/

open Sys2Proof Sys2Proof.Machine

/-! ## Encoding -/

/-- Decoding the bytes of a well-formed instruction, whatever follows them, gives back the instruction and what follows,
under every well-formed opcode map (R61-R63, R65). -/
def Obligations.DecodeInvertsEncode : Prop :=
  ∀ (m : OpcodeMap) (i : Instr) (rest : List Byte), OpcodeMap.wf m = true → i.wf = true →
    decode m (i.bytes m ++ rest) = .ok (i, rest) ∧
    ∀ bs, encode m i = some bs → decode m (bs ++ rest) = .ok (i, rest)

/-- Every decoded instruction is well-formed, and the bytes consumed are exactly the bytes it encodes to (R65, R70). -/
def Obligations.EncodeInvertsDecode : Prop :=
  ∀ (m : OpcodeMap) (bs rest : List Byte) (i : Instr), OpcodeMap.wf m = true → decode m bs = .ok (i, rest) →
    i.wf = true ∧ bs = i.bytes m ++ rest

/-- R65: the map is a bijection between the opcodes and the byte values 0-16, decoding reverses encoding, and every other
byte value is ILLEGAL. -/
def Obligations.OpcodeMapIsBijection : Prop :=
  ∀ m : OpcodeMap, OpcodeMap.wf m = true →
    (∀ k, decodeOpcode m (encodeOpcode m k) = some k) ∧
    (∀ b k, decodeOpcode m b = some k → encodeOpcode m k = b) ∧
    (∀ b, (decodeOpcode m b).isSome = true ↔ b.toNat ≤ 16)

/-- R64: the default byte values, every other value unmapped. Only 6, 7 and 8 are the source's; the rest is the spec's
decision D1 (log entry 2). -/
def Obligations.DefaultOpcodeBytes : Prop :=
  OpcodeMap.wf OpcodeMap.default = true ∧
  (List.range 17).map (fun n => decodeOpcode OpcodeMap.default (BitVec.ofNat 8 n)) =
    [some .load, some .add, some .sub, some .mul, some .div, some .jmp, some .hlt, some .jmpf, some .jmpb,
      some .eq, some .neq, some .lt, some .gt, some .ltq, some .gtq, some .jeq, some .jneq] ∧
  ∀ b : Byte, 17 ≤ b.toNat → decodeOpcode OpcodeMap.default b = none

/-- R69: an instruction's length follows from its opcode byte alone: 1 for HLT and for an unmapped byte, 4 for every other
opcode. -/
def Obligations.LengthFollowsFromOpcodeByte : Prop :=
  ∀ (m : OpcodeMap) (op : Byte) (bs rest : List Byte) (i : Instr), decode m (op :: bs) = .ok (i, rest) →
    (op :: bs).length = rest.length +
      (match decodeOpcode m op with
        | none => 1
        | some .hlt => 1
        | some _ => 4)

/-- A few words of opcode_table.json, written out from the encodings of R61-R63, decode to the instructions they stand
for. The byte values other than 6 are the default map's (spec decision D1, log entry 2). -/
def Obligations.LiteralWordsDecode : Prop :=
  decodeTableWord 32 0x000001F4 = some (.load 0 500) ∧
  decodeTableWord 32 0x04010203 = some (.div 1 2 3) ∧
  decodeTableWord 32 0x05006363 = some (.jmp 0 0x63 0x63) ∧
  decodeTableWord 32 0x0E0402FF = some (.gtq 4 2 255) ∧
  decodeTableWord 32 0x10070000 = some (.jneq 7 0 0) ∧
  decodeTableWord 8 0x06 = some .hlt ∧
  decodeTableWord 8 0xC8 = some (.illegal 200)

/-- R74, R75: the encoder fails in exactly these cases: ILLEGAL, a malformed token, operands that do not match the
class, and a register above 255. That ILLEGAL is refused is the spec's decision D21 (log entry 22). -/
def Obligations.EncoderFailsExactlyWhen : Prop :=
  ∀ (m : OpcodeMap) (l : AsmLine),
    (∃ e, assemble m l = .error e) ↔
      (l.opcode = none ∨ .malformed ∈ l.operands ∨ l.wf = false ∨ ∃ n, .reg n ∈ l.operands ∧ 255 < n)

/-- R73: LOAD's immediate is packed modulo 2^16, high byte first, whatever the 32-bit value. -/
def Obligations.EncoderTruncatesImmediate : Prop :=
  ∀ (m : OpcodeMap) (d : Nat) (v : Word), d ≤ 255 →
    ∃ hi lo : Byte, assemble m ⟨some .load, [.reg d, .imm v]⟩ =
        .ok [encodeOpcode m .load, BitVec.ofNat 8 d, hi, lo] ∧
      ((hi.toNat * 256 + lo.toNat : Nat) : Int) = v.toInt % 65536

/-- R78: a line that assembles, its bytes appended to an engine that has executed everything before them, is performed by
one step, with its immediate truncated. -/
def Obligations.AssembledLineRunsInOneStep : Prop :=
  ∀ (s t : State) (l : AsmLine) (bs : List Byte), s.Inv → s.pc = s.len →
    assemble s.cfg.opcodeMap l = .ok bs → appendBytes bs s = (.ok, t) →
    ∃ i, l.instr = .ok i ∧ fetch t = .ok i ∧ step t = exec i t ∧
      (∀ d v, l = ⟨some .load, [.reg d, .imm v]⟩ → i = .load (BitVec.ofNat 8 d) (BitVec.ofInt 16 v.toInt)) ∧
      (l = ⟨some .load, [.reg 0, .imm 100]⟩ → ∃ u, step t = .next u ∧ u.reg 0 = 100)

/-! ## The step -/

/-- Where the bytes at the program counter decode to an instruction, the step is that instruction's. -/
def Obligations.StepRunsDecodedInstruction : Prop :=
  ∀ (s : State) (i : Instr) (rest : List Byte), decode s.cfg.opcodeMap (fetchBytes s) = .ok (i, rest) →
    step s = exec i s

/-- Where the bytes of a well-formed instruction stand in the buffer at the program counter, at any offset, the step is that
instruction's. -/
def Obligations.StepRunsInstructionAtPc : Prop :=
  ∀ (s : State) (i : Instr), s.cfg.wf = true → i.wf = true → s.HoldsAt s.pc i → step s = exec i s

/-- R97: the step is the pseudocode's, in every state. -/
def Obligations.StepIsThePseudocode : Prop :=
  ∀ s : State, step s = Reference.step s

/-- R92: a step that begins at or beyond the buffer's length changes nothing and reports the halt. -/
def Obligations.StepAtEndOfBufferHalts : Prop :=
  ∀ s : State, s.len ≤ s.pc → step s = .next { s with report := some (.halted .endOfBuffer) }

/-- R95: LOAD or an arity-3 opcode with fewer than four bytes left faults. The fault is the spec's decision D10 (log
entry 19). -/
def Obligations.TruncatedInstructionFaults : Prop :=
  ∀ (s : State) (op : Byte) (k : Opcode), s.progByte s.pc = some op → decodeOpcode s.cfg.opcodeMap op = some k →
    k ≠ .hlt → s.len - s.pc < 4 → step s = .fault (.truncatedInstruction s.pc)

/-- R96: the first used slot of 32 or more, in the order s1, s2, s3, raises the fault with that byte; unused slots are
not checked, so nothing else raises it. Which slots are checked, and their order, are the spec's decisions D12 and D14
(log entries 18, 19). -/
def Obligations.FirstBadUsedSlotFaults : Prop :=
  ∀ (i : Instr) (s : State) (b : Byte) (a : Nat),
    exec i s = .fault (.registerOutOfRange b a) ↔
      i.usedSlots.find? (fun b => decide (32 ≤ b.toNat)) = some b ∧ a = s.pc

/-- R66: a slot marked unused may hold any value: what the instruction does does not depend on it. This is the spec's
decision D12 (log entry 18). -/
def Obligations.UnusedSlotsAreIgnored : Prop :=
  ∀ (s : State) (s1 s2 u v u' v' : Byte),
    exec (.jmp s1 u v) s = exec (.jmp s1 u' v') s ∧ exec (.jmpf s1 u v) s = exec (.jmpf s1 u' v') s ∧
    exec (.jmpb s1 u v) s = exec (.jmpb s1 u' v') s ∧ exec (.jeq s1 u v) s = exec (.jeq s1 u' v') s ∧
    exec (.jneq s1 u v) s = exec (.jneq s1 u' v') s ∧ exec (.eq s1 s2 u) s = exec (.eq s1 s2 v) s ∧
    exec (.neq s1 s2 u) s = exec (.neq s1 s2 v) s ∧ exec (.lt s1 s2 u) s = exec (.lt s1 s2 v) s ∧
    exec (.gt s1 s2 u) s = exec (.gt s1 s2 v) s ∧ exec (.ltq s1 s2 u) s = exec (.ltq s1 s2 v) s ∧
    exec (.gtq s1 s2 u) s = exec (.gtq s1 s2 v) s

/-- R182: the order in which a step reports when several events apply. The order is the spec's decision D14 (log entry
19). -/
def Obligations.EventPriority : Prop :=
  ∀ s : State,
    (s.len ≤ s.pc → step s = .next { s with report := some (.halted .endOfBuffer) }) ∧
    ∀ op, s.progByte s.pc = some op →
      (decodeOpcode s.cfg.opcodeMap op = none →
        step s = .next { s with pc := s.pc + 1, report := some (.halted (.illegal op)) }) ∧
      (decodeOpcode s.cfg.opcodeMap op = some .hlt →
        step s = .next { s with pc := s.pc + 1, report := some (.halted .hlt) }) ∧
      ∀ k, decodeOpcode s.cfg.opcodeMap op = some k → k ≠ .hlt →
        (s.len < s.pc + 4 → step s = .fault (.truncatedInstruction s.pc)) ∧
        ∀ b1 b2 b3, s.progByte (s.pc + 1) = some b1 → s.progByte (s.pc + 2) = some b2 →
          s.progByte (s.pc + 3) = some b3 →
          (∀ b, (instrOf k b1 b2 b3).usedSlots.find? (fun b => decide (32 ≤ b.toNat)) = some b →
            step s = .fault (.registerOutOfRange b s.pc)) ∧
          ((instrOf k b1 b2 b3).usedSlots.find? (fun b => decide (32 ≤ b.toNat)) = none →
            step s = exec (instrOf k b1 b2 b3) s ∧
            ∀ f, step s = .fault f → f.code = 1 ∨ f.code = 3 ∨ f.code = 4 ∨ f.code = 6)

/-- R180: the six faults, each only from its own cause, with its info and the faulting instruction's address. The
faults with codes 4, 5 and 6 are the spec's decisions D9, D10 and D8 (log entries 17, 19). -/
def Obligations.FaultsHaveTheirCauses : Prop :=
  ∀ (s : State) (f : Fault), step s = .fault f →
    f.addr = s.pc ∧
    match f with
    | .divideByZero _ => ∃ s1 s2 s3 : Byte, ∃ r : Fin 32, fetch s = .ok (.div s1 s2 s3) ∧ s2.toNat = r ∧ s.reg r = 0
    | .registerOutOfRange b _ => ∃ i, fetch s = .ok i ∧ b ∈ i.usedSlots ∧ 32 ≤ b.toNat
    | .pcUnderflow t _ => t < 0 ∧ ∃ s1 s2 s3 : Byte, ∃ r : Fin 32, s1.toNat = r ∧
        (fetch s = .ok (.jmpf s1 s2 s3) ∧ t = s.pc + 2 + (s.reg r).toInt ∨
          fetch s = .ok (.jmpb s1 s2 s3) ∧ t = s.pc + 2 - (s.reg r).toInt)
    | .negativeJumpTarget v _ => v.toInt < 0 ∧ ∃ s1 s2 s3 : Byte, ∃ r : Fin 32, s1.toNat = r ∧ v = s.reg r ∧
        (fetch s = .ok (.jmp s1 s2 s3) ∨ fetch s = .ok (.jeq s1 s2 s3) ∧ s.eqf = true ∨
          fetch s = .ok (.jneq s1 s2 s3) ∧ s.eqf = false)
    | .truncatedInstruction _ => s.pc < s.len ∧ s.len < s.pc + 4 ∧ ∃ op k, s.progByte s.pc = some op ∧
        decodeOpcode s.cfg.opcodeMap op = some k ∧ k ≠ .hlt
    | .pcOverflow t _ => 2 ^ s.cfg.pcBits ≤ t ∧ ∃ s1 s2 s3 : Byte, ∃ r : Fin 32, s1.toNat = r ∧
        (fetch s = .ok (.jmpf s1 s2 s3) ∧ t = s.pc + 2 + (s.reg r).toInt ∨
          fetch s = .ok (.jmpb s1 s2 s3) ∧ t = s.pc + 2 - (s.reg r).toInt ∨
          t = (s.reg r).toInt ∧ s.cfg.pcBits < 31 ∧
            (fetch s = .ok (.jmp s1 s2 s3) ∨ fetch s = .ok (.jeq s1 s2 s3) ∧ s.eqf = true ∨
              fetch s = .ok (.jneq s1 s2 s3) ∧ s.eqf = false))

/-- R183: a fault leaves every register, rem, the flag, the buffer and the program counter as they were, and is
reported. This is the spec's decision D11; how the model's two views of a fault fit together is log entry 6. -/
def Obligations.FaultChangesNothing : Prop :=
  ∀ (s : State) (f : Fault), step s = .fault f →
    hostStep s = some (.faulted f, { s with report := some (.faulted f) })

/-- R103: a fault is not sticky, and stepping again without a change by the host faults again; a judged run ends at
its first fault. This is the spec's decision D11 (log entry 6). -/
def Obligations.FaultRepeatsUntilHostActs : Prop :=
  ∀ (s t : State) (f : Fault), hostStep s = some (.faulted f, t) →
    t.pc = f.addr ∧ hostStep t = some (.faulted f, t) ∧ RunEnds s (.faulted f) t ∧
    ∀ n, Sys2Proof.core.run (n + 1) s = .fault f

/-- R181, R102: a step halts in exactly these three cases, and leaves only the program counter moved. That a halt is
not sticky is the spec's decision D25 (log entry 7). -/
def Obligations.HaltsExactlyWhen : Prop :=
  ∀ (s : State) (t : State) (reason : HaltReason),
    hostStep s = some (.halted reason, t) ↔
      match reason with
      | .hlt => fetch s = .ok .hlt ∧ t = { s with pc := s.pc + 1, report := some (.halted .hlt) }
      | .endOfBuffer => s.len ≤ s.pc ∧ t = { s with report := some (.halted .endOfBuffer) }
      | .illegal op => fetch s = .ok (.illegal op) ∧ t = { s with pc := s.pc + 1, report := some (.halted (.illegal op)) }

/-- R91, R210: every step returns and reports exactly one outcome; none is refused. -/
def Obligations.EveryStepReportsAnOutcome : Prop :=
  ∀ s : State, (∀ r, step s ≠ .refused r) ∧ ∃ r t, hostStep s = some (r, t) ∧ t.report = some r

/-- Neither the remainder register nor the last step's report is read by a step (R30, R21, R102): with other values in
them, the step ends in the same way, and leaves the same state but for a remainder that it did not write. That the
outcome is no state is the spec's decision D25; the field is log entry 5. -/
def Obligations.RemainderAndReportAreNeverRead : Prop :=
  ∀ (s : State) (v : Word) (r : Option Report),
    (∀ f, step { s with rem := v, report := r } = .fault f ↔ step s = .fault f) ∧
    ∀ t, step s = .next t →
      ∃ w, step { s with rem := v, report := r } = .next { t with rem := w } ∧ (w = t.rem ∨ (w = v ∧ t.rem = s.rem))

/-- What an instruction that answers a next state leaves unchanged. -/
def Obligations.InstructionFrame : Prop :=
  ∀ (i : Instr) (s t : State), exec i s = .next t →
    (∀ r : Fin 32, (∀ d, i.destSlot = some d → d.toNat ≠ r.val) → t.reg r = s.reg r) ∧
    (i.writesEqf = false → t.eqf = s.eqf) ∧
    (i.writesRem = false → t.rem = s.rem) ∧
    (∀ a, t.progByte a = s.progByte a) ∧ t.len = s.len ∧ t.cfg = s.cfg

/-- R45: the engine never writes memory, whatever the step's outcome. -/
def Obligations.NoStepWritesTheBuffer : Prop :=
  ∀ (s t : State) (r : Report), hostStep s = some (r, t) →
    (∀ a, t.progByte a = s.progByte a) ∧ t.len = s.len ∧ t.prog = s.prog

/-! ## Invariants and the reset state -/

/-- Every step keeps the invariant: the buffer stays canonical and within its capacity, and the program counter never
leaves [0, 2^PC_BITS) (R26, R29, R44). That the program counter never wraps is derived by the spec from its decision
D7 (log entries 4, 20). -/
def Obligations.EveryStepKeepsInvariant : Prop :=
  ∀ s t : State, s.Inv → step s = .next t → t.Inv

/-- The reset state meets the invariant, and so does a new engine under any well-formed parameters. -/
def Obligations.NewEngineMeetsInvariant : Prop :=
  State.reset.Inv ∧ ∀ cfg : Config, cfg.wf = true → (State.create cfg).Inv

/-- R200: the reset values. rem's value is the spec's decision D16 (log entry 9). -/
def Obligations.ResetValues : Prop :=
  ∀ cfg : Config,
    (∀ r : Fin 32, (State.create cfg).reg r = 0) ∧ (State.create cfg).eqf = false ∧ (State.create cfg).len = 0 ∧
    (∀ a, (State.create cfg).progByte a = none) ∧ (State.create cfg).pc = 0 ∧ (State.create cfg).rem = 0 ∧
    State.reset = State.create Config.default

/-- R22: a register written holds the value, every other register keeps its own: none is hard-wired and none has an alias;
all are zero in a new engine. -/
def Obligations.RegistersAreIndependent : Prop :=
  (∀ (s : State) (r r' : Fin 32) (v : Word), (s.setReg r v).reg r' = if r' = r then v else s.reg r') ∧
  ∀ (cfg : Config) (r : Fin 32), (State.create cfg).reg r = 0

/-! ## Instructions -/

/-- R110, R111: LOAD. The widening is the parameter of the spec's decision D2 (log entry 3); the default byte and the
truncation fault are its D1 and D10 (log entries 2, 19). -/
def Obligations.LoadWritesWidenedImmediate : Prop :=
  FourByteForm 0x00 .load (fun b1 b2 b3 => .load b1 (immOfBytes b2 b3)) ∧
  (∀ hi lo : Byte, (immOfBytes hi lo).toNat = hi.toNat * 256 + lo.toNat) ∧
  (∀ (s : State) (s1 : Byte) (imm : Half), 32 ≤ s1.toNat →
    exec (.load s1 imm) s = .fault (.registerOutOfRange s1 s.pc)) ∧
  ∀ (s : State) (d : Fin 32) (s1 : Byte) (imm : Half), s1.toNat = d →
    ∃ v : Word,
      v.toInt = (match s.cfg.loadImmExt with
        | .sign => imm.toInt
        | .zero => imm.toNat) ∧
      exec (.load s1 imm) s = .next { s with x := s.x.set d.val v, pc := s.pc + 4, report := some .continued }

/-- R121: ADD. The default byte, the truncation fault and the order of the checks are the spec's decisions D1, D10 and
D14 (log entries 2, 19). -/
def Obligations.AddWritesWrappedSum : Prop :=
  ArithmeticRule 0x01 .add .add (fun A B => A + B)

/-- R122: SUB. The default byte, the truncation fault and the order of the checks are the spec's decisions D1, D10 and
D14 (log entries 2, 19). -/
def Obligations.SubWritesWrappedDifference : Prop :=
  ArithmeticRule 0x02 .sub .sub (fun A B => A - B)

/-- R123: MUL. The default byte, the truncation fault and the order of the checks are the spec's decisions D1, D10 and
D14 (log entries 2, 19). -/
def Obligations.MulWritesWrappedProduct : Prop :=
  ArithmeticRule 0x03 .mul .mul (fun A B => A * B)

/-- R124, R128: DIV, with a divisor other than 0, both results from the values read. Rounding is the spec's decision
D5 and reading both operands first its D27 (log entry 11); the default byte and the truncation fault are its D1 and
D10 (log entries 2, 19). -/
def Obligations.DivWritesQuotientAndRemainder : Prop :=
  FourByteForm 0x04 .div .div ∧ AssemblesSlots .div ∧ ChecksSlots123 .div ∧
  ∀ (s : State) (r1 r2 r3 : Fin 32) (s1 s2 s3 : Byte), s1.toNat = r1 → s2.toNat = r2 → s3.toNat = r3 → s.reg r2 ≠ 0 →
    exec (.div s1 s2 s3) s =
      .next { s with
        x := s.x.set r3.val (wrap32 (tdiv (s.reg r1).toInt (s.reg r2).toInt)),
        rem := wrap32 (trem (s.reg r1).toInt (s.reg r2).toInt), pc := s.pc + 4, report := some .continued }

/-- R125: DIV by zero faults. (That the fault writes nothing is FaultChangesNothing.) -/
def Obligations.DivideByZeroFaults : Prop :=
  ∀ (s : State) (r1 r2 r3 : Fin 32) (s1 s2 s3 : Byte), s1.toNat = r1 → s2.toNat = r2 → s3.toNat = r3 → s.reg r2 = 0 →
    exec (.div s1 s2 s3) s = .fault (.divideByZero s.pc)

/-- R126: -2^31 by -1 wraps to -2^31, with remainder 0, and does not fault. This is the spec's decision D5 (log entry
11). -/
def Obligations.DivisionOverflowWraps : Prop :=
  ∀ (s : State) (r1 r2 r3 : Fin 32) (s1 s2 s3 : Byte), s1.toNat = r1 → s2.toNat = r2 → s3.toNat = r3 →
    (s.reg r1).toInt = -2147483648 → (s.reg r2).toInt = -1 →
    ∃ t, exec (.div s1 s2 s3) s = .next t ∧ (t.reg r3).toInt = -2147483648 ∧ t.rem.toInt = 0 ∧ t.pc = s.pc + 4

/-- R120: division rounds toward zero, and the remainder is 0 or has the dividend's sign and is smaller than the
divisor. The rounding is the spec's decision D5 and general knowledge G2 (log entry 11). -/
def Obligations.DivisionRoundsTowardZero : Prop :=
  ∀ a b : Int, b ≠ 0 →
    (tdiv a b).natAbs = a.natAbs / b.natAbs ∧
    (tdiv a b < 0 ↔ ((a < 0 ∧ 0 < b) ∨ (0 < a ∧ b < 0)) ∧ b.natAbs ≤ a.natAbs) ∧
    a = b * tdiv a b + trem a b ∧ (trem a b = 0 ∨ (trem a b < 0 ↔ a < 0)) ∧ (trem a b).natAbs < b.natAbs

/-- R12: `wrap32(z)` is the unique 32-bit signed value congruent to `z` modulo 2^32. That an i32 is two's complement
is general knowledge G1 (log entry 10). -/
def Obligations.WrapIsTheCongruentValue : Prop :=
  ∀ (z : Int) (w : Word), wrap32 z = w ↔ w.toInt % 4294967296 = z % 4294967296

/-- The exact-then-wrap arithmetic of R120-R124 is the two's-complement arithmetic of 32-bit words. That an i32 is
two's complement is general knowledge G1 (log entry 10); the division is decision D5 (log entry 11). -/
def Obligations.ArithmeticIsTwosComplement : Prop :=
  ∀ A B : Word,
    wrap32 (A.toInt + B.toInt) = A + B ∧ wrap32 (A.toInt - B.toInt) = A - B ∧ wrap32 (A.toInt * B.toInt) = A * B ∧
    (B ≠ 0 → wrap32 (tdiv A.toInt B.toInt) = A.sdiv B ∧ wrap32 (trem A.toInt B.toInt) = A.srem B ∧
      (wrap32 (trem A.toInt B.toInt)).toInt = trem A.toInt B.toInt)

/-- R140: JMP. The negative-target fault is the spec's decision D9 (log entry 19); the default byte and the truncation
fault are its D1 and D10 (log entries 2, 19). -/
def Obligations.JmpGoesToRegisterValue : Prop :=
  FourByteForm 0x05 .jmp .jmp ∧ AssemblesSlots .jmp ∧ ChecksSlot1 .jmp ∧
  ∀ (s : State) (r : Fin 32) (s1 s2 s3 : Byte), s1.toNat = r → AbsoluteJump .jmp s r s1 s2 s3

/-- R141: JMPF. Negative offsets and the overflow fault are the spec's decision D8 (log entry 17); the truncation
fault is its D10 (log entry 19). -/
def Obligations.JmpfMovesForwardFromAddressPlusTwo : Prop :=
  RelativeJumpRule 0x07 .jmpf .jmpf (fun a v => (a + 2) + v)

/-- R142: JMPB. Negative offsets and the overflow fault are the spec's decision D8 (log entry 17); the truncation
fault is its D10 (log entry 19). -/
def Obligations.JmpbMovesBackFromAddressPlusTwo : Prop :=
  RelativeJumpRule 0x08 .jmpb .jmpb (fun a v => (a + 2) - v)

/-- R143: the offset that takes JMPF or JMPB from its address to a target. -/
def Obligations.RelativeOffsetReachesTarget : Prop :=
  ∀ (s : State) (r : Fin 32) (s1 s2 s3 : Byte) (T : Nat), s1.toNat = r → T < 2 ^ s.cfg.pcBits →
    ((s.reg r).toInt = T - (s.pc + 2) →
      exec (.jmpf s1 s2 s3) s = .next { s with pc := T, report := some .continued }) ∧
    ((s.reg r).toInt = (s.pc + 2) - T →
      exec (.jmpb s1 s2 s3) s = .next { s with pc := T, report := some .continued })

/-- R150-R156: the six comparisons. LTQ and GTQ's meaning is the spec's decision D3, the operand order its D4 (log
entry 16); the default bytes and the truncation fault are its D1 and D10 (log entries 2, 19). -/
def Obligations.ComparisonsSetTheFlag : Prop :=
  ComparisonRule 0x09 .eq .eq (fun A B => A = B) ∧ ComparisonRule 0x0A .neq .neq (fun A B => A ≠ B) ∧
  ComparisonRule 0x0B .lt .lt (fun A B => A < B) ∧ ComparisonRule 0x0C .gt .gt (fun A B => A > B) ∧
  ComparisonRule 0x0D .ltq .ltq (fun A B => A ≤ B) ∧ ComparisonRule 0x0E .gtq .gtq (fun A B => A ≥ B)

/-- R160: JEQ. The negative-target fault is the spec's decision D9 and the check when not taken its D13 (log entry
19); the default byte and the truncation fault are its D1 and D10 (log entries 2, 19). -/
def Obligations.JeqJumpsWhenFlagTrue : Prop :=
  ConditionalJumpRule 0x0F .jeq .jeq true

/-- R161: JNEQ. The negative-target fault is the spec's decision D9 and the check when not taken its D13 (log entry
19); the default byte and the truncation fault are its D1 and D10 (log entries 2, 19). -/
def Obligations.JneqJumpsWhenFlagFalse : Prop :=
  ConditionalJumpRule 0x10 .jneq .jneq false

/-- R170: HLT, one byte, never truncated. -/
def Obligations.HltHaltsPastItsByte : Prop :=
  (∀ (m : OpcodeMap) (rest : List Byte), OpcodeMap.wf m = true →
    encodeOpcode m .hlt = 6 ∧ decode m (6 :: rest) = .ok (.hlt, rest) ∧ assemble m ⟨some .hlt, []⟩ = .ok [6]) ∧
  (∀ s : State, exec .hlt s = .next { s with pc := s.pc + 1, report := some (.halted .hlt) }) ∧
  ∀ s : State, s.cfg.wf = true → s.progByte s.pc = some 6 →
    hostStep s = some (.halted .hlt, { s with pc := s.pc + 1, report := some (.halted .hlt) })

/-- R94: an unmapped byte halts past itself, carrying the byte. -/
def Obligations.IllegalHaltsPastItsByte : Prop :=
  (∀ (m : OpcodeMap) (op : Byte) (rest : List Byte), OpcodeMap.wf m = true → 17 ≤ op.toNat →
    decode m (op :: rest) = .ok (.illegal op, rest)) ∧
  (∀ (s : State) (op : Byte),
    exec (.illegal op) s = .next { s with pc := s.pc + 1, report := some (.halted (.illegal op)) }) ∧
  ∀ (s : State) (op : Byte), s.cfg.wf = true → 17 ≤ op.toNat → s.progByte s.pc = some op →
    hostStep s = some (.halted (.illegal op), { s with pc := s.pc + 1, report := some (.halted (.illegal op)) })

/-! ## Runs and the host -/

/-- R30, R32, R162: however many steps go by, the flag keeps its value until a comparison executes, and the remainder until a
DIV executes. -/
def Obligations.FlagAndRemainderPersist : Prop :=
  ∀ (n : Nat) (s t : State),
    (StepsAvoiding Instr.writesEqf n s t → t.eqf = s.eqf) ∧ (StepsAvoiding Instr.writesRem n s t → t.rem = s.rem)

/-- R99: a run that ends ends in one way only, and not with `Continue`. That running out of fuel is no end is the
spec's decision D29 (log entry 25). -/
def Obligations.RunEndsInOneWay : Prop :=
  ∀ (s t t' : State) (r r' : Report), RunEnds s r t → RunEnds s r' t' → r = r' ∧ t = t' ∧ r.stops = true

/-- R99, R140: JMP to its own address loops for ever: the run has no end. That this hang is kept is the spec's
decision D29 (log entry 25). -/
def Obligations.SelfJumpNeverEnds : Prop :=
  ∀ (s : State) (r : Fin 32) (s1 s2 s3 : Byte), fetch s = .ok (.jmp s1 s2 s3) → s1.toNat = r →
    (s.reg r).toInt = s.pc → s.pc < 2 ^ s.cfg.pcBits → ¬ ∃ o t, RunEnds s o t

/-- R44, R100: `append_byte` places the byte at the buffer's end and changes no other byte and no other state; at
capacity it is refused and changes nothing. The capacity and the refusal are the spec's decision D7 (log entry 4). -/
def Obligations.AppendPlacesByteAtTheEnd : Prop :=
  ∀ (s : State) (b : Byte), s.Inv →
    (s.len < s.cfg.maxProgramLen →
      ∃ t, appendByte b s = (.ok, t) ∧ t.len = s.len + 1 ∧
        (∀ a, t.progByte a = if a = s.len then some b else s.progByte a) ∧
        t = { s with prog := t.prog, len := t.len }) ∧
    (s.cfg.maxProgramLen ≤ s.len → appendByte b s = (.bufferFull, s))

/-- R101: what the preset port writes, and that it reaches neither rem nor the buffer. The port is the spec's decision
D17; that no other pc can be preset is log entry 26. -/
def Obligations.PresetsReachOnlyTheirTarget : Prop :=
  ∀ s : State,
    (∀ i v, presetReg i v s = { s with x := s.x.set i.val v } ∧ readReg i (presetReg i v s) = v) ∧
    (∀ t, (t < 2 ^ s.cfg.pcBits → presetPc t s = some { s with pc := t }) ∧
      (2 ^ s.cfg.pcBits ≤ t → presetPc t s = none)) ∧
    (∀ b, presetEqf b s = { s with eqf := b })

/-- Every operation of the host keeps the invariant (R100, R101). -/
def Obligations.HostKeepsInvariant : Prop :=
  ∀ s : State, s.Inv →
    (∀ b, (appendByte b s).2.Inv) ∧ (∀ i v, (presetReg i v s).Inv) ∧ (∀ b, (presetEqf b s).Inv) ∧
    (∀ n t, presetPc n s = some t → t.Inv) ∧ (∀ r t, hostStep s = some (r, t) → t.Inv) ∧
    (∀ r t, RunEnds s r t → t.Inv)

/-- R202, R204: creating an engine and appending a program's bytes gives a clean launch of that program. -/
def Obligations.BootGivesCleanLaunch : Prop :=
  ∀ (cfg : Config) (P : List Byte), cfg.wf = true → P.length ≤ cfg.maxProgramLen →
    ∃ t, appendBytes P (State.create cfg) = (.ok, t) ∧ CleanLaunch P t ∧ t.Inv

/-- R52: a truncated instruction changes nothing, and once the host appends the missing bytes a new step executes it.
The truncation fault is the spec's decision D10 (log entry 19). -/
def Obligations.AppendingCompletesTruncatedInstruction : Prop :=
  ∀ (s t : State) (bs : List Byte), s.Inv → step s = .fault (.truncatedInstruction s.pc) →
    appendBytes bs s = (.ok, t) → s.pc + 4 ≤ s.len + bs.length →
    ∃ i, fetch t = .ok i ∧ step t = exec i t ∧ i.bytes s.cfg.opcodeMap = (fetchBytes s ++ bs).take 4
end

