-- ==== Sys2Proof/Laws/Decode.lean ====
section
/-!
SUPPORT. Everything the decoder and the fetch can answer.
-/

namespace Sys2Proof

/-- Everything the decoder can answer. -/
theorem decode_cases (m : OpcodeMap) (bs : List Byte) :
    (bs = [] ∧ decode m bs = .error .noByte) ∨
    (∃ op rest, bs = op :: rest ∧
      ((decodeOpcode m op = none ∧ decode m bs = .ok (.illegal op, rest)) ∨
        (decodeOpcode m op = some .hlt ∧ decode m bs = .ok (.hlt, rest)) ∨
        (∃ k, decodeOpcode m op = some k ∧ k ≠ .hlt ∧ rest.length < 3 ∧ decode m bs = .error .truncated) ∨
        (∃ k b1 b2 b3 rest', decodeOpcode m op = some k ∧ k ≠ .hlt ∧ rest = b1 :: b2 :: b3 :: rest' ∧
          decode m bs = .ok (instrOf k b1 b2 b3, rest')))) := by
  cases bs with
  | nil => exact .inl ⟨rfl, rfl⟩
  | cons op rest =>
    refine .inr ⟨op, rest, rfl, ?_⟩
    cases hk : decodeOpcode m op with
    | none => exact .inl ⟨rfl, by simp [decode, hk]⟩
    | some k =>
      refine .inr ?_
      by_cases hh : k = .hlt
      · subst hh
        exact .inl ⟨rfl, by simp [decode, hk, decodeOperands, Opcode.arity, instrOf]⟩
      · refine .inr ?_
        match rest with
        | [] => exact .inl ⟨k, rfl, hh, by simp, by cases k <;> simp_all [decode, decodeOperands, Opcode.arity]⟩
        | [_] => exact .inl ⟨k, rfl, hh, by simp, by cases k <;> simp_all [decode, decodeOperands, Opcode.arity]⟩
        | [_, _] => exact .inl ⟨k, rfl, hh, by simp, by cases k <;> simp_all [decode, decodeOperands, Opcode.arity]⟩
        | b1 :: b2 :: b3 :: rest' =>
          exact .inr ⟨k, b1, b2, b3, rest', rfl, hh, rfl, by cases k <;> simp_all [decode, decodeOperands, Opcode.arity]⟩

/-- LOAD's immediate is big-endian (spec/20_memory.md R40). -/
theorem immOfBytes_toNat (hi lo : Byte) : (immOfBytes hi lo).toNat = hi.toNat * 256 + lo.toNat := by
  have hlo : lo.toNat < 2 ^ 8 := lo.isLt
  rw [immOfBytes, BitVec.toNat_append, ← Nat.shiftLeft_add_eq_or_of_lt hlo, Nat.shiftLeft_eq]

@[simp] theorem immOfBytes_hi (hi lo : Byte) : (immOfBytes hi lo).extractLsb' 8 8 = hi := by
  apply BitVec.eq_of_toNat_eq
  have := hi.isLt
  have := lo.isLt
  rw [BitVec.extractLsb'_toNat, immOfBytes_toNat, Nat.shiftRight_eq_div_pow]
  omega

@[simp] theorem immOfBytes_lo (hi lo : Byte) : (immOfBytes hi lo).extractLsb' 0 8 = lo := by
  apply BitVec.eq_of_toNat_eq
  have := lo.isLt
  rw [BitVec.extractLsb'_toNat, immOfBytes_toNat, Nat.shiftRight_eq_div_pow]
  omega

@[simp] theorem immOfBytes_extract (imm : Half) : immOfBytes (imm.extractLsb' 8 8) (imm.extractLsb' 0 8) = imm := by
  apply BitVec.eq_of_toNat_eq
  have := imm.isLt
  rw [immOfBytes_toNat, BitVec.extractLsb'_toNat, BitVec.extractLsb'_toNat, Nat.shiftRight_eq_div_pow,
    Nat.shiftRight_eq_div_pow]
  omega

namespace Machine

/-- Everything a step can do, by what the fetch finds. -/
theorem step_cases (s : State) :
    (∃ i, fetch s = .ok i ∧ step s = exec i s) ∨
    (fetch s = .error .noByte ∧ step s = haltAt .endOfBuffer s.pc s) ∨
    (fetch s = .error .truncated ∧ step s = .fault (.truncatedInstruction s.pc)) := by
  unfold step
  cases h : fetch s with
  | ok i => exact .inl ⟨i, rfl, rfl⟩
  | error e =>
    cases e
    · exact .inr (.inl ⟨rfl, rfl⟩)
    · exact .inr (.inr ⟨rfl, rfl⟩)

end Machine

end Sys2Proof
end

