-- ==== Sys2Proof/Laws/State.lean ====
section
/-!
SUPPORT. What each update of the state leaves in each field.
-/

namespace Sys2Proof.Machine

@[simp] theorem State.setReg_x (s : State) (r : Fin 32) (v : Word) : (State.setReg r v s).x = s.x.set r.val v := rfl
@[simp] theorem State.setReg_pc (s : State) (r : Fin 32) (v : Word) : (State.setReg r v s).pc = s.pc := rfl
@[simp] theorem State.setReg_rem (s : State) (r : Fin 32) (v : Word) : (State.setReg r v s).rem = s.rem := rfl
@[simp] theorem State.setReg_eqf (s : State) (r : Fin 32) (v : Word) : (State.setReg r v s).eqf = s.eqf := rfl
@[simp] theorem State.setReg_prog (s : State) (r : Fin 32) (v : Word) : (State.setReg r v s).prog = s.prog := rfl
@[simp] theorem State.setReg_len (s : State) (r : Fin 32) (v : Word) : (State.setReg r v s).len = s.len := rfl
@[simp] theorem State.setReg_cfg (s : State) (r : Fin 32) (v : Word) : (State.setReg r v s).cfg = s.cfg := rfl
@[simp] theorem State.setReg_report (s : State) (r : Fin 32) (v : Word) : (State.setReg r v s).report = s.report := rfl

@[simp] theorem State.setRem_x (s : State) (v : Word) : (State.setRem v s).x = s.x := rfl
@[simp] theorem State.setRem_pc (s : State) (v : Word) : (State.setRem v s).pc = s.pc := rfl
@[simp] theorem State.setRem_rem (s : State) (v : Word) : (State.setRem v s).rem = v := rfl
@[simp] theorem State.setRem_eqf (s : State) (v : Word) : (State.setRem v s).eqf = s.eqf := rfl
@[simp] theorem State.setRem_prog (s : State) (v : Word) : (State.setRem v s).prog = s.prog := rfl
@[simp] theorem State.setRem_len (s : State) (v : Word) : (State.setRem v s).len = s.len := rfl
@[simp] theorem State.setRem_cfg (s : State) (v : Word) : (State.setRem v s).cfg = s.cfg := rfl
@[simp] theorem State.setRem_report (s : State) (v : Word) : (State.setRem v s).report = s.report := rfl

@[simp] theorem State.setEqf_x (s : State) (b : Bool) : (State.setEqf b s).x = s.x := rfl
@[simp] theorem State.setEqf_pc (s : State) (b : Bool) : (State.setEqf b s).pc = s.pc := rfl
@[simp] theorem State.setEqf_rem (s : State) (b : Bool) : (State.setEqf b s).rem = s.rem := rfl
@[simp] theorem State.setEqf_eqf (s : State) (b : Bool) : (State.setEqf b s).eqf = b := rfl
@[simp] theorem State.setEqf_prog (s : State) (b : Bool) : (State.setEqf b s).prog = s.prog := rfl
@[simp] theorem State.setEqf_len (s : State) (b : Bool) : (State.setEqf b s).len = s.len := rfl
@[simp] theorem State.setEqf_cfg (s : State) (b : Bool) : (State.setEqf b s).cfg = s.cfg := rfl
@[simp] theorem State.setEqf_report (s : State) (b : Bool) : (State.setEqf b s).report = s.report := rfl

@[simp] theorem State.placeByte_x (s : State) (a : Nat) (b : Byte) : (State.placeByte a b s).x = s.x := rfl
@[simp] theorem State.placeByte_pc (s : State) (a : Nat) (b : Byte) : (State.placeByte a b s).pc = s.pc := rfl
@[simp] theorem State.placeByte_rem (s : State) (a : Nat) (b : Byte) : (State.placeByte a b s).rem = s.rem := rfl
@[simp] theorem State.placeByte_eqf (s : State) (a : Nat) (b : Byte) : (State.placeByte a b s).eqf = s.eqf := rfl
@[simp] theorem State.placeByte_prog (s : State) (a : Nat) (b : Byte) : (State.placeByte a b s).prog = Memory.write s.prog a b := rfl
@[simp] theorem State.placeByte_len (s : State) (a : Nat) (b : Byte) : (State.placeByte a b s).len = max s.len (a + 1) := rfl
@[simp] theorem State.placeByte_cfg (s : State) (a : Nat) (b : Byte) : (State.placeByte a b s).cfg = s.cfg := rfl
@[simp] theorem State.placeByte_report (s : State) (a : Nat) (b : Byte) : (State.placeByte a b s).report = s.report := rfl

@[simp] theorem State.create_x (cfg : Config) : (State.create cfg).x = Vector.replicate 32 0 := rfl
@[simp] theorem State.create_pc (cfg : Config) : (State.create cfg).pc = 0 := rfl
@[simp] theorem State.create_rem (cfg : Config) : (State.create cfg).rem = 0 := rfl
@[simp] theorem State.create_eqf (cfg : Config) : (State.create cfg).eqf = false := rfl
@[simp] theorem State.create_prog (cfg : Config) : (State.create cfg).prog = [] := rfl
@[simp] theorem State.create_len (cfg : Config) : (State.create cfg).len = 0 := rfl
@[simp] theorem State.create_cfg (cfg : Config) : (State.create cfg).cfg = cfg := rfl
@[simp] theorem State.create_report (cfg : Config) : (State.create cfg).report = none := rfl

/-! ## Registers -/

theorem State.reg_setReg (s : State) (r r' : Fin 32) (v : Word) :
    (s.setReg r v).reg r' = if r = r' then v else s.reg r' := by
  simp [State.reg, State.setReg, Vector.getElem_set, Fin.ext_iff]

@[simp] theorem State.reg_setReg_self (s : State) (r : Fin 32) (v : Word) : (s.setReg r v).reg r = v := by
  simp [State.reg_setReg]

theorem State.reg_setReg_of_ne (s : State) {r r' : Fin 32} (v : Word) (h : r ≠ r') :
    (s.setReg r v).reg r' = s.reg r' := by
  simp [State.reg_setReg, h]

@[simp] theorem State.reg_setRem (s : State) (v : Word) (r : Fin 32) : (s.setRem v).reg r = s.reg r := rfl

@[simp] theorem State.reg_setEqf (s : State) (b : Bool) (r : Fin 32) : (s.setEqf b).reg r = s.reg r := rfl

@[simp] theorem State.reg_placeByte (s : State) (a : Nat) (b : Byte) (r : Fin 32) :
    (s.placeByte a b).reg r = s.reg r := rfl

@[simp] theorem State.reg_create (cfg : Config) (r : Fin 32) : (State.create cfg).reg r = 0 := by
  simp [State.reg]

/-! ## Reads that do not see an update -/

@[simp] theorem State.progByte_setReg (s : State) (r : Fin 32) (v : Word) (a : Nat) :
    (s.setReg r v).progByte a = s.progByte a := rfl

@[simp] theorem State.progByte_setRem (s : State) (v : Word) (a : Nat) : (s.setRem v).progByte a = s.progByte a := rfl

@[simp] theorem State.progByte_setEqf (s : State) (b : Bool) (a : Nat) : (s.setEqf b).progByte a = s.progByte a := rfl

@[simp] theorem State.progByte_create (cfg : Config) (a : Nat) : (State.create cfg).progByte a = none := rfl

end Sys2Proof.Machine
end

