-- ==== Sys2Proof/Laws/Memory.lean ====
section
/-!
SUPPORT. The laws of the buffer's list: read after write, the canonical form is kept and is canonical, and what the
operations over the buffer do to each byte.
-/

namespace Sys2Proof.Machine

/-! ## Reading -/

theorem Memory.read_eq_unlisted {m : Memory} {a : Nat} (h : ∀ c ∈ m, a ≠ c.1) : m.read a = Memory.unlisted := by
  induction m with
  | nil => rfl
  | cons c m ih =>
    have hc : ¬ c.1 = a := fun e => h c (by simp) e.symm
    simp only [Memory.read, hc, if_false]
    exact ih fun d hd => h d (by simp [hd])

theorem Memory.read_of_mem {m : Memory} (hp : m.Pairwise fun c d => c.1 < d.1) {c : Host.Cell} (hc : c ∈ m) :
    m.read c.1 = c.2 := by
  induction m with
  | nil => cases hc
  | cons d m ih =>
    rw [List.pairwise_cons] at hp
    rcases List.mem_cons.1 hc with rfl | hm
    · simp [Memory.read]
    · simp [Memory.read, (hp.1 c hm).ne, ih hp.2 hm]

/-! ## Writing -/

/-- Every entry after a write was there before or is the one written. -/
theorem Memory.mem_write {m : Memory} {a : Nat} {b : Byte} {c : Host.Cell} (h : c ∈ m.write a b) :
    c ∈ m ∨ (c = (a, b) ∧ b ≠ Memory.unlisted) := by
  induction m with
  | nil => by_cases hb : b = Memory.unlisted <;> simp_all [Memory.write]
  | cons d m ih =>
    simp only [Memory.write] at h
    split_ifs at h with h1 hb h2 hb
    · exact .inl h
    · rcases List.mem_cons.1 h with rfl | h
      · exact .inr ⟨rfl, hb⟩
      · exact .inl h
    · exact .inl (by simp [h])
    · rcases List.mem_cons.1 h with rfl | h
      · exact .inr ⟨rfl, hb⟩
      · exact .inl (by simp [h])
    · rcases List.mem_cons.1 h with rfl | h
      · exact .inl (by simp)
      · rcases ih h with h | h
        · exact .inl (by simp [h])
        · exact .inr h

/-- A write keeps the canonical form. -/
theorem Memory.wf_write {m : Memory} (h : Memory.wf m) (a : Nat) (b : Byte) : Memory.wf (m.write a b) := by
  refine ⟨?_, fun c hc => ?_⟩
  · have hp := h.1
    clear h
    induction m with
    | nil => by_cases hb : b = Memory.unlisted <;> simp [Memory.write, hb]
    | cons d m ih =>
      rw [List.pairwise_cons] at hp
      simp only [Memory.write]
      split_ifs with h1 hb h2 hb
      · exact List.pairwise_cons.2 hp
      · refine List.pairwise_cons.2 ⟨fun c hc => ?_, List.pairwise_cons.2 hp⟩
        rcases List.mem_cons.1 hc with rfl | hc
        · exact h1
        · exact h1.trans (hp.1 c hc)
      · exact hp.2
      · exact List.pairwise_cons.2 ⟨fun c hc => h2 ▸ hp.1 c hc, hp.2⟩
      · refine List.pairwise_cons.2 ⟨fun c hc => ?_, ih hp.2⟩
        rcases Memory.mem_write hc with hc | ⟨rfl, -⟩
        · exact hp.1 c hc
        · simp only; omega
  · rcases Memory.mem_write hc with hc | ⟨rfl, hb⟩
    · exact h.2 c hc
    · exact hb

/-- An offset below the first listed one is not listed. -/
theorem Memory.read_below {c : Host.Cell} {m : Memory} (hp : (c :: m).Pairwise fun c d => c.1 < d.1) {a : Nat}
    (h : a < c.1) : Memory.read (c :: m) a = Memory.unlisted := by
  rw [List.pairwise_cons] at hp
  refine Memory.read_eq_unlisted fun d hd => ?_
  rcases List.mem_cons.1 hd with rfl | hd
  · exact h.ne
  · exact (h.trans (hp.1 d hd)).ne

/-- Read after write. -/
theorem Memory.read_write {m : Memory} (hp : m.Pairwise fun c d => c.1 < d.1) (a : Nat) (b : Byte) (k : Nat) :
    (m.write a b).read k = if k = a then b else m.read k := by
  induction m with
  | nil => by_cases hb : b = Memory.unlisted <;> by_cases hk : a = k <;> simp_all [Memory.write, Memory.read, eq_comm]
  | cons d m ih =>
    have hp' := List.pairwise_cons.1 hp
    have tail : Memory.read m d.1 = Memory.unlisted := Memory.read_eq_unlisted fun c hc => (hp'.1 c hc).ne
    by_cases hk : k = a
    · subst hk
      simp only [Memory.write]
      split_ifs with h1 hb h2 hb
      · rw [Memory.read_below hp h1, hb]
      · simp [Memory.read]
      · rw [h2, tail, hb]
      · simp [Memory.read]
      · simp [Memory.read, Ne.symm h2, ih hp'.2]
    · simp only [Memory.write, hk, if_false]
      split_ifs with h1 hb h2 hb
      · rfl
      · simp [Memory.read, Ne.symm hk]
      · simp [Memory.read, h2 ▸ Ne.symm hk]
      · simp [Memory.read, Ne.symm hk, h2 ▸ Ne.symm hk]
      · simp [Memory.read, ih hp'.2, hk]

/-- The form is canonical: two lists in it that read the same are the same list. -/
theorem Memory.eq_of_read_eq : ∀ {m n : Memory}, Memory.wf m → Memory.wf n → (∀ a, m.read a = n.read a) → m = n
  | [], [], _, _, _ => rfl
  | [], d :: n, _, hn, h => absurd (h d.1) (by simpa [Memory.read] using (hn.2 d (by simp)).symm)
  | c :: m, [], hm, _, h => absurd (h c.1) (by simpa [Memory.read] using hm.2 c (by simp))
  | c :: m, d :: n, hm, hn, h => by
    have hne : ∀ {e : Host.Cell} {l : Memory}, Memory.wf (e :: l) → Memory.read (e :: l) e.1 ≠ Memory.unlisted :=
      fun he => by simpa [Memory.read] using he.2 _ (by simp)
    have heq : c.1 = d.1 := by
      rcases lt_trichotomy c.1 d.1 with hlt | heq | hlt
      · exact absurd ((h c.1).trans (Memory.read_below hn.1 hlt)) (hne hm)
      · exact heq
      · exact absurd ((h d.1).symm.trans (Memory.read_below hm.1 hlt)) (hne hn)
    have hcd : c = d := by
      have := h c.1
      simp only [Memory.read, heq, if_true] at this
      exact Prod.ext heq this
    subst hcd
    have tail : ∀ {l : Memory}, Memory.wf (c :: l) → Memory.read l c.1 = Memory.unlisted := fun hl =>
      Memory.read_eq_unlisted fun e he => ((List.pairwise_cons.1 hl.1).1 e he).ne
    congr 1
    refine Memory.eq_of_read_eq ⟨(List.pairwise_cons.1 hm.1).2, fun e he => hm.2 e (by simp [he])⟩
      ⟨(List.pairwise_cons.1 hn.1).2, fun e he => hn.2 e (by simp [he])⟩ fun a => ?_
    by_cases ha : c.1 = a
    · subst ha
      rw [tail hm, tail hn]
    · simpa [Memory.read, ha] using h a

/-! ## The buffer -/

/-- The buffer holds a byte at exactly the offsets below its length. -/
theorem State.progByte_isSome (s : State) (a : Nat) : (s.progByte a).isSome ↔ a < s.len := by
  unfold State.progByte
  split_ifs <;> simp_all

theorem State.progByte_of_lt {s : State} {a : Nat} (h : a < s.len) : s.progByte a = some (Memory.read s.prog a) :=
  if_pos h

theorem State.progByte_of_le {s : State} {a : Nat} (h : s.len ≤ a) : s.progByte a = none :=
  if_neg (Nat.not_lt.2 h)

/-- A byte placed at the buffer's end, read back, and every other offset as before. -/
theorem State.progByte_placeByte_len {s : State} (h : Memory.wf s.prog) (b : Byte) (k : Nat) :
    (s.placeByte s.len b).progByte k = if k = s.len then some b else s.progByte k := by
  unfold State.progByte
  simp only [State.placeByte_len, State.placeByte_prog, Memory.read_write h.1]
  by_cases hk : k = s.len
  · subst hk
    simp
  · by_cases hlt : k < s.len
    · simp [hk, hlt, hlt.le]
    · have : ¬ k < s.len + 1 := by omega
      simp [hk, hlt, this]

/-- Placing a byte keeps the buffer canonical and within its length. -/
theorem State.placeByte_wf {s : State} (h : Memory.wf s.prog) (hb : ∀ c ∈ s.prog, c.1 < s.len) (a : Nat) (b : Byte) :
    Memory.wf (s.placeByte a b).prog ∧ ∀ c ∈ (s.placeByte a b).prog, c.1 < (s.placeByte a b).len := by
  refine ⟨Memory.wf_write h a b, fun c hc => ?_⟩
  rcases Memory.mem_write hc with hc | ⟨rfl, -⟩
  · exact (hb c hc).trans_le (by simp)
  · simp

/-- Placing bytes keeps the buffer canonical and within its length. -/
theorem State.placeBytes_wf (bs : List Byte) : ∀ {s : State}, Memory.wf s.prog → (∀ c ∈ s.prog, c.1 < s.len) → ∀ a,
    Memory.wf (State.placeBytes a bs s).prog ∧
      ∀ c ∈ (State.placeBytes a bs s).prog, c.1 < (State.placeBytes a bs s).len := by
  induction bs with
  | nil => exact fun h hb _ => ⟨h, hb⟩
  | cons b bs ih =>
    intro s h hb a
    exact ih (State.placeByte_wf h hb a b).1 (State.placeByte_wf h hb a b).2 (a + 1)

/-- Everything an append can do. -/
theorem appendByte_cases (b : Byte) (s : State) :
    (s.len < s.cfg.maxProgramLen ∧ appendByte b s = (.ok, s.placeByte s.len b)) ∨
      (s.cfg.maxProgramLen ≤ s.len ∧ appendByte b s = (.bufferFull, s)) := by
  unfold appendByte
  split_ifs with h
  · exact .inl ⟨h, rfl⟩
  · exact .inr ⟨Nat.le_of_not_lt h, rfl⟩

/-- An append keeps the buffer canonical and within its length. -/
theorem appendByte_wf {s : State} (h : Memory.wf s.prog) (hb : ∀ c ∈ s.prog, c.1 < s.len) (b : Byte) :
    Memory.wf (appendByte b s).2.prog ∧ ∀ c ∈ (appendByte b s).2.prog, c.1 < (appendByte b s).2.len := by
  rcases appendByte_cases b s with ⟨-, e⟩ | ⟨-, e⟩ <;> rw [e]
  · exact State.placeByte_wf h hb _ _
  · exact ⟨h, hb⟩

/-- The memory after reset is in the canonical form, with nothing listed. -/
theorem State.reset_prog_wf : Memory.wf State.reset.prog ∧ ∀ c ∈ State.reset.prog, c.1 < State.reset.len := by
  decide

/-! ## Fetched bytes -/

/-- Every byte fetched stands in the buffer at its own offset. -/
theorem State.bytesFrom_getElem (s : State) : ∀ (n a k : Nat),
    (s.bytesFrom n a)[k]? = if k < n then s.progByte (a + k) else none
  | 0, _, k => by simp [State.bytesFrom]
  | n + 1, a, k => by
    unfold State.bytesFrom
    by_cases ha : a < s.len
    · rw [State.progByte_of_lt ha]
      cases k with
      | zero => simp [State.progByte_of_lt ha]
      | succ k =>
        simp only [List.getElem?_cons_succ, State.bytesFrom_getElem s n (a + 1) k]
        simp [Nat.add_assoc, Nat.add_comm 1 k]
    · rw [State.progByte_of_le (Nat.le_of_not_lt ha)]
      simp [State.progByte_of_le (show s.len ≤ a + k by omega)]

/-- How many bytes a fetch finds. -/
theorem State.bytesFrom_length (s : State) : ∀ (n a : Nat), (s.bytesFrom n a).length = min n (s.len - a)
  | 0, _ => by simp [State.bytesFrom]
  | n + 1, a => by
    unfold State.bytesFrom
    by_cases ha : a < s.len
    · rw [State.progByte_of_lt ha]
      simp only [List.length_cons, State.bytesFrom_length s n (a + 1)]
      omega
    · rw [State.progByte_of_le (Nat.le_of_not_lt ha)]
      simp only [List.length_nil]
      omega

end Sys2Proof.Machine
end

