-- ==== Sys2Proof/Laws/Ops.lean ====
section
/-!
SUPPORT. One lemma per shared operation, which says once everything it can answer.
-/

namespace Sys2Proof.Machine

/-! ## How a step ends -/

theorem continueAt_eq_next (n : Nat) (s t : State) :
    continueAt n s = .next t ↔ t = { s with pc := n, report := some .continued } := by
  simp [continueAt, eq_comm]

theorem haltAt_eq_next (reason : HaltReason) (n : Nat) (s t : State) :
    haltAt reason n s = .next t ↔ t = { s with pc := n, report := some (.halted reason) } := by
  simp [haltAt, eq_comm]

theorem raise_ne_next (f : Nat → Fault) (s t : State) : raise f s ≠ .next t := by
  simp [raise]

/-- Everything an absolute jump can do. -/
theorem absoluteJump_cases (v : Word) (s : State) :
    (v.toInt < 0 ∧ absoluteJump v s = .fault (.negativeJumpTarget v s.pc)) ∨
    (0 ≤ v.toInt ∧ ((2 ^ s.cfg.pcBits : Nat) : Int) ≤ v.toInt ∧ absoluteJump v s = .fault (.pcOverflow v.toInt s.pc)) ∨
    (0 ≤ v.toInt ∧ v.toInt < ((2 ^ s.cfg.pcBits : Nat) : Int) ∧ absoluteJump v s = continueAt v.toInt.toNat s) := by
  unfold absoluteJump
  split_ifs with h1 h2
  · exact .inl ⟨h1, rfl⟩
  · exact .inr (.inl ⟨by omega, h2, rfl⟩)
  · exact .inr (.inr ⟨by omega, by omega, rfl⟩)

/-- Everything a relative jump can do. -/
theorem relativeJump_cases (t : Int) (s : State) :
    (t < 0 ∧ relativeJump t s = .fault (.pcUnderflow t s.pc)) ∨
    (0 ≤ t ∧ ((2 ^ s.cfg.pcBits : Nat) : Int) ≤ t ∧ relativeJump t s = .fault (.pcOverflow t s.pc)) ∨
    (0 ≤ t ∧ t < ((2 ^ s.cfg.pcBits : Nat) : Int) ∧ relativeJump t s = continueAt t.toNat s) := by
  unfold relativeJump
  split_ifs with h1 h2
  · exact .inl ⟨h1, rfl⟩
  · exact .inr (.inl ⟨by omega, h2, rfl⟩)
  · exact .inr (.inr ⟨by omega, by omega, rfl⟩)

/-! ## Operands -/

theorem regOf_eq_some (b : Byte) (r : Fin 32) : regOf b = some r ↔ b.toNat = r.val := by
  unfold regOf
  split_ifs with h
  · simp [Fin.ext_iff]
  · simp only [false_iff]
    have := r.isLt
    omega

theorem regOf_eq_none (b : Byte) : regOf b = none ↔ 32 ≤ b.toNat := by
  unfold regOf
  split_ifs with h
  · simp [h]
  · simp; omega

theorem withReg_of_eq {b : Byte} {r : Fin 32} (h : b.toNat = r.val) (s : State) (k : Fin 32 → Result) :
    withReg b s k = k r := by
  simp [withReg, (regOf_eq_some b r).2 h]

theorem withReg_of_ge {b : Byte} (h : 32 ≤ b.toNat) (s : State) (k : Fin 32 → Result) :
    withReg b s k = .fault (.registerOutOfRange b s.pc) := by
  simp [withReg, (regOf_eq_none b).2 h, raise]

/-- Everything a used slot's range check can do. -/
theorem withReg_cases (b : Byte) (s : State) (k : Fin 32 → Result) :
    (32 ≤ b.toNat ∧ withReg b s k = .fault (.registerOutOfRange b s.pc)) ∨
    (∃ r : Fin 32, b.toNat = r.val ∧ withReg b s k = k r) := by
  rcases Nat.lt_or_ge b.toNat 32 with h | h
  · exact .inr ⟨⟨b.toNat, h⟩, rfl, withReg_of_eq rfl s k⟩
  · exact .inl ⟨h, withReg_of_ge h s k⟩

/-! ## The shapes of the families: the next state each can answer -/

theorem arith_next {f : Int → Int → Int} {s1 s2 s3 : Byte} {s t : State} (h : arith f s1 s2 s3 s = .next t) :
    ∃ r1 r2 r3 : Fin 32, s1.toNat = r1 ∧ s2.toNat = r2 ∧ s3.toNat = r3 ∧
      t = { s.setReg r3 (wrap32 (f (s.reg r1).toInt (s.reg r2).toInt)) with
        pc := s.pc + 4, report := some .continued } := by
  unfold arith at h
  rcases withReg_cases s1 s _ with ⟨-, e⟩ | ⟨r1, h1, e⟩ <;> rw [e] at h
  · cases h
  rcases withReg_cases s2 s _ with ⟨-, e⟩ | ⟨r2, h2, e⟩ <;> rw [e] at h
  · cases h
  rcases withReg_cases s3 s _ with ⟨-, e⟩ | ⟨r3, h3, e⟩ <;> rw [e] at h
  · cases h
  exact ⟨r1, r2, r3, h1, h2, h3, (continueAt_eq_next _ _ _).1 h⟩

theorem compareWith_next {cmp : Word → Word → Bool} {s1 s2 : Byte} {s t : State}
    (h : compareWith cmp s1 s2 s = .next t) :
    ∃ r1 r2 : Fin 32, s1.toNat = r1 ∧ s2.toNat = r2 ∧
      t = { s with eqf := cmp (s.reg r1) (s.reg r2), pc := s.pc + 4, report := some .continued } := by
  unfold compareWith at h
  rcases withReg_cases s1 s _ with ⟨-, e⟩ | ⟨r1, h1, e⟩ <;> rw [e] at h
  · cases h
  rcases withReg_cases s2 s _ with ⟨-, e⟩ | ⟨r2, h2, e⟩ <;> rw [e] at h
  · cases h
  exact ⟨r1, r2, h1, h2, (continueAt_eq_next _ _ _).1 h⟩

/-- A jump's next state: the state it began in, but for the program counter and the report. -/
theorem absoluteJump_next {v : Word} {s t : State} (h : absoluteJump v s = .next t) :
    0 ≤ v.toInt ∧ v.toInt < ((2 ^ s.cfg.pcBits : Nat) : Int) ∧
      t = { s with pc := v.toInt.toNat, report := some .continued } := by
  rcases absoluteJump_cases v s with ⟨-, e⟩ | ⟨-, -, e⟩ | ⟨h0, h1, e⟩ <;> rw [e] at h
  · cases h
  · cases h
  · exact ⟨h0, h1, (continueAt_eq_next _ _ _).1 h⟩

theorem relativeJump_next {n : Int} {s t : State} (h : relativeJump n s = .next t) :
    0 ≤ n ∧ n < ((2 ^ s.cfg.pcBits : Nat) : Int) ∧ t = { s with pc := n.toNat, report := some .continued } := by
  rcases relativeJump_cases n s with ⟨-, e⟩ | ⟨-, -, e⟩ | ⟨h0, h1, e⟩ <;> rw [e] at h
  · cases h
  · cases h
  · exact ⟨h0, h1, (continueAt_eq_next _ _ _).1 h⟩

theorem condJump_next {taken : Bool} {s1 : Byte} {s t : State} (h : condJump taken s1 s = .next t) :
    ∃ r : Fin 32, s1.toNat = r ∧
      ((taken = true ∧ 0 ≤ (s.reg r).toInt ∧ (s.reg r).toInt < ((2 ^ s.cfg.pcBits : Nat) : Int) ∧
          t = { s with pc := (s.reg r).toInt.toNat, report := some .continued }) ∨
        (taken = false ∧ t = { s with pc := s.pc + 4, report := some .continued })) := by
  unfold condJump at h
  rcases withReg_cases s1 s _ with ⟨-, e⟩ | ⟨r, h1, e⟩ <;> rw [e] at h
  · cases h
  refine ⟨r, h1, ?_⟩
  cases taken
  · exact .inr ⟨rfl, (continueAt_eq_next _ _ _).1 h⟩
  · exact .inl ⟨rfl, absoluteJump_next h⟩

end Sys2Proof.Machine
end

