-- ==== Sys2Proof/Laws/PerInstr.lean ====
section
/-!
SUPPORT. Statements for every instruction, made one constructor at a time.
-/

namespace Sys2Proof.Laws.BytesLength

/-- An instruction's bytes are as many as its length: 1 or 4 (spec/30_encoding.md R60). -/
def Statement (i : Instr) : Prop :=
  ∀ m : OpcodeMap, (i.bytes m).length = i.length ∧ (i.length = 1 ∨ i.length = 4)

theorem load (s1 : Byte) (imm : Half) : Statement (.load s1 imm) := fun _ => ⟨rfl, .inr rfl⟩

theorem add (s1 s2 s3 : Byte) : Statement (.add s1 s2 s3) := fun _ => ⟨rfl, .inr rfl⟩

theorem sub (s1 s2 s3 : Byte) : Statement (.sub s1 s2 s3) := fun _ => ⟨rfl, .inr rfl⟩

theorem mul (s1 s2 s3 : Byte) : Statement (.mul s1 s2 s3) := fun _ => ⟨rfl, .inr rfl⟩

theorem div (s1 s2 s3 : Byte) : Statement (.div s1 s2 s3) := fun _ => ⟨rfl, .inr rfl⟩

theorem jmp (s1 s2 s3 : Byte) : Statement (.jmp s1 s2 s3) := fun _ => ⟨rfl, .inr rfl⟩

theorem hlt : Statement .hlt := fun _ => ⟨rfl, .inl rfl⟩

theorem jmpf (s1 s2 s3 : Byte) : Statement (.jmpf s1 s2 s3) := fun _ => ⟨rfl, .inr rfl⟩

theorem jmpb (s1 s2 s3 : Byte) : Statement (.jmpb s1 s2 s3) := fun _ => ⟨rfl, .inr rfl⟩

theorem eq (s1 s2 s3 : Byte) : Statement (.eq s1 s2 s3) := fun _ => ⟨rfl, .inr rfl⟩

theorem neq (s1 s2 s3 : Byte) : Statement (.neq s1 s2 s3) := fun _ => ⟨rfl, .inr rfl⟩

theorem lt (s1 s2 s3 : Byte) : Statement (.lt s1 s2 s3) := fun _ => ⟨rfl, .inr rfl⟩

theorem gt (s1 s2 s3 : Byte) : Statement (.gt s1 s2 s3) := fun _ => ⟨rfl, .inr rfl⟩

theorem ltq (s1 s2 s3 : Byte) : Statement (.ltq s1 s2 s3) := fun _ => ⟨rfl, .inr rfl⟩

theorem gtq (s1 s2 s3 : Byte) : Statement (.gtq s1 s2 s3) := fun _ => ⟨rfl, .inr rfl⟩

theorem jeq (s1 s2 s3 : Byte) : Statement (.jeq s1 s2 s3) := fun _ => ⟨rfl, .inr rfl⟩

theorem jneq (s1 s2 s3 : Byte) : Statement (.jneq s1 s2 s3) := fun _ => ⟨rfl, .inr rfl⟩

theorem illegal (op : Byte) : Statement (.illegal op) := fun _ => ⟨rfl, .inl rfl⟩

end Sys2Proof.Laws.BytesLength
end

