-- ==== Sys2Proof/Tests/Slice0.lean ====
section
/-!
SUPPORT. The model's own tests. Expected values are those of spec/95_test_vectors.md (W, V, P entries), spec/30_encoding.md
and opcode_table.json, or worked by hand from the rule named.
-/

namespace Sys2Proof.Tests

open Sys2Proof Sys2Proof.Machine

/-! ## Helpers -/

/-- A new engine with the bytes `P` appended. -/
def boot (P : List Byte) : State := (appendBytes P State.reset).2

/-- Registers preset in order from x[1] on. -/
def withX12 (A B : Int) (s : State) : State := presetReg 2 (wrap32 B) (presetReg 1 (wrap32 A) s)

/-- The engine at reset under zero extension. -/
def resetZero : State := State.create { Config.default with loadImmExt := .zero }

/-- A field of the next state, where there is one. -/
def nextOf {α : Type} (f : State → α) : Result → Option α
  | .next t => some (f t)
  | _ => none

/-- The fault, where there is one. -/
def faultOf : Result → Option Fault
  | .fault f => some f
  | _ => none

/-- What a comparison leaves in the flag and the program counter. -/
def flagAndPc (i : Instr) (A B : Int) : Option (Bool × Nat) :=
  nextOf (fun t => (t.eqf, t.pc)) (exec i (withX12 A B State.reset))

/-! ## Well-formedness: each check refuses an ill-formed term -/

theorem test_wf_map_default : OpcodeMap.wf OpcodeMap.default = true := by decide
theorem test_wf_map_length : OpcodeMap.wf (OpcodeMap.default ++ [.add]) = false := by decide
theorem test_wf_map_duplicate : OpcodeMap.wf (OpcodeMap.default.set 0 .add) = false := by decide
theorem test_wf_map_hlt_moved : OpcodeMap.wf ((OpcodeMap.default.set 6 .add).set 1 .hlt) = false := by decide
theorem test_wf_map_jmpf_moved : OpcodeMap.wf ((OpcodeMap.default.set 7 .jmpb).set 8 .jmpf) = false := by decide
theorem test_wf_map_jmpb_moved : OpcodeMap.wf ((OpcodeMap.default.set 8 .add).set 1 .jmpb) = false := by decide
/-- Another assignment of the open values is as good as the default (R64). -/
theorem test_wf_map_other : OpcodeMap.wf ((OpcodeMap.default.set 1 .sub).set 2 .add) = true := by decide
theorem test_wf_config_capacity : Config.wf { Config.default with maxProgramLen := 2 ^ 64 } = false := by decide
theorem test_wf_config_map : Config.wf { Config.default with opcodeMap := [] } = false := by decide
theorem test_wf_illegal_16 : (Instr.illegal 16).wf = false := by decide
theorem test_wf_illegal_17 : (Instr.illegal 17).wf = true := by decide
theorem test_wf_line_kinds : AsmLine.wf ⟨some .load, [.imm 1, .reg 0]⟩ = false := by decide
theorem test_wf_line_count : AsmLine.wf ⟨some .jmp, [.reg 0]⟩ = false := by decide
theorem test_wf_line_illegal : AsmLine.wf ⟨none, []⟩ = false := by decide
theorem test_wf_memory_order : ¬ Memory.wf [(1, 5), (0, 6)] := by decide
theorem test_wf_memory_unlisted : ¬ Memory.wf [(1, 0)] := by decide

/-! ## Decoding: a word of each row, written out from the encoding of R61-R63 and opcode_table.json -/

theorem test_decode_load : decodeTableWord 32 0x000501F4 = some (.load 5 500) := by decide
theorem test_decode_add : decodeTableWord 32 0x01010203 = some (.add 1 2 3) := by decide
theorem test_decode_sub : decodeTableWord 32 0x02050002 = some (.sub 5 0 2) := by decide
theorem test_decode_mul : decodeTableWord 32 0x03000102 = some (.mul 0 1 2) := by decide
theorem test_decode_div : decodeTableWord 32 0x04000103 = some (.div 0 1 3) := by decide
theorem test_decode_jmp : decodeTableWord 32 0x05006364 = some (.jmp 0 0x63 0x64) := by decide
theorem test_decode_hlt : decodeTableWord 8 0x06 = some .hlt := by decide
theorem test_decode_jmpf : decodeTableWord 32 0x07000102 = some (.jmpf 0 1 2) := by decide
theorem test_decode_jmpb : decodeTableWord 32 0x08050000 = some (.jmpb 5 0 0) := by decide
theorem test_decode_eq : decodeTableWord 32 0x090000FF = some (.eq 0 0 255) := by decide
theorem test_decode_neq : decodeTableWord 32 0x0A000400 = some (.neq 0 4 0) := by decide
theorem test_decode_lt : decodeTableWord 32 0x0B030400 = some (.lt 3 4 0) := by decide
theorem test_decode_gt : decodeTableWord 32 0x0C000102 = some (.gt 0 1 2) := by decide
theorem test_decode_ltq : decodeTableWord 32 0x0D000102 = some (.ltq 0 1 2) := by decide
theorem test_decode_gtq : decodeTableWord 32 0x0E040200 = some (.gtq 4 2 0) := by decide
theorem test_decode_jeq : decodeTableWord 32 0x0F210000 = some (.jeq 33 0 0) := by decide
theorem test_decode_jneq : decodeTableWord 32 0x10070000 = some (.jneq 7 0 0) := by decide
theorem test_decode_illegal_first : decodeTableWord 8 0x11 = some (.illegal 17) := by decide
theorem test_decode_illegal_last : decodeTableWord 8 0xFF = some (.illegal 255) := by decide
/-- A four-byte opcode with three bytes is no instruction (V7), and nothing is none. -/
theorem test_decode_truncated : decode OpcodeMap.default [1, 0, 0] = .error .truncated := rfl
theorem test_decode_empty : decode OpcodeMap.default [] = .error .noByte := rfl
/-- The bytes after the instruction are left (R70, R94). -/
theorem test_decode_rest : decode OpcodeMap.default [200, 6] = .ok (.illegal 200, [6]) := rfl

/-! ## The encoder (V1, R73-R75) -/

theorem test_encode_gtq : encode OpcodeMap.default (.gtq 4 2 255) = some [0x0E, 4, 2, 255] := by decide
theorem test_encode_illegal : encode OpcodeMap.default (.illegal 200) = none := by decide
theorem test_assemble_load_100 : assemble OpcodeMap.default ⟨some .load, [.reg 0, .imm 100]⟩ = .ok [0, 0, 0, 0x64] := rfl
theorem test_assemble_load_70000 :
    assemble OpcodeMap.default ⟨some .load, [.reg 5, .imm 70000]⟩ = .ok [0, 5, 0x11, 0x70] := rfl
theorem test_assemble_load_minus_32769 :
    assemble OpcodeMap.default ⟨some .load, [.reg 5, .imm (wrap32 (-32769))]⟩ = .ok [0, 5, 0x7F, 0xFF] := rfl
theorem test_assemble_register_above_255 :
    assemble OpcodeMap.default ⟨some .add, [.reg 0, .reg 256, .reg 1]⟩ = .error .registerAbove255 := rfl
theorem test_assemble_register_255 :
    assemble OpcodeMap.default ⟨some .add, [.reg 0, .reg 255, .reg 1]⟩ = .ok [1, 0, 255, 1] := rfl
theorem test_assemble_malformed :
    assemble OpcodeMap.default ⟨some .load, [.reg 0, .malformed]⟩ = .error .malformedToken := rfl

/-! ## Memory -/

theorem test_memory_write_zero_unlists : Memory.write [(3, 7)] 3 0 = [] := by decide
theorem test_memory_write_sorted : Memory.write [(1, 7), (3, 9)] 2 8 = [(1, 7), (2, 8), (3, 9)] := by decide
theorem test_buffer_past_end : (boot [6]).progByte 1 = none := by decide
theorem test_buffer_zero_byte : (boot [6, 0]).progByte 1 = some 0 := by decide

/-! ## Instructions -/

/-- W2. -/
theorem test_load_500 : nextOf (fun t => (t.reg 0, t.pc)) (step (boot [0, 0, 1, 0xF4])) = some (500, 4) := by decide
/-- V1: 40000 under both settings of LOAD_IMM_EXT. -/
theorem test_load_extension :
    nextOf (fun t => (t.reg 31).toInt) (exec (.load 31 40000) State.reset) = some (-25536) ∧
    nextOf (fun t => (t.reg 31).toInt) (exec (.load 31 40000) resetZero) = some 40000 := by decide
/-- V2. -/
theorem test_add_wraps :
    nextOf (fun t => ((t.reg 3).toInt, t.pc)) (exec (.add 1 2 3) (withX12 2147483647 1 State.reset)) =
      some (-2147483648, 4) := by decide
theorem test_add_aliases : nextOf (fun t => t.reg 0) (exec (.add 0 0 0) (presetReg 0 21 State.reset)) = some 42 := by decide
theorem test_sub_order :
    nextOf (fun t => (t.reg 3).toInt) (exec (.sub 1 2 3) (withX12 3 5 State.reset)) = some (-2) := by decide
theorem test_mul_wraps :
    nextOf (fun t => (t.reg 3).toInt) (exec (.mul 1 2 3) (withX12 46341 46341 State.reset)) = some (-2147479015) := by decide
/-- V3. -/
theorem test_div_negative :
    nextOf (fun t => ((t.reg 3).toInt, t.rem.toInt)) (exec (.div 1 2 3) (withX12 (-7) 2 State.reset)) =
      some (-3, -1) := by decide
theorem test_div_aliases :
    nextOf (fun t => ((t.reg 1).toInt, t.rem.toInt)) (exec (.div 1 2 1) (withX12 7 2 State.reset)) = some (3, 1) := by decide
/-- W5 and V5. -/
theorem test_jmp_absolute : nextOf (fun t => t.pc) (step (presetReg 0 1 (boot [5, 0, 0x63, 0x63]))) = some 1 := by decide
theorem test_jmp_negative :
    faultOf (step (presetReg 0 (wrap32 (-1)) (boot [5, 0, 0, 0]))) = some (.negativeJumpTarget (wrap32 (-1)) 0) := by decide
/-- W6 and V5. -/
theorem test_jmpf_base : nextOf (fun t => t.pc) (step (presetReg 0 2 (boot [7, 0, 0, 0, 6, 0, 0, 0]))) = some 4 := by decide
theorem test_jmpf_underflow :
    faultOf (step (presetReg 0 (wrap32 (-3)) (boot [7, 0, 0, 0]))) = some (.pcUnderflow (-1) 0) := by decide
/-- W7 and V5. -/
theorem test_jmpb_base :
    nextOf (fun t => t.pc) (exec (.jmpb 0 0 0) { presetReg 0 4 State.reset with pc := 8 }) = some 6 := by decide
theorem test_jmpb_underflow :
    faultOf (exec (.jmpb 0 0 0) { presetReg 0 11 State.reset with pc := 8 }) = some (.pcUnderflow (-1) 8) := by decide
/-- R141 under a narrow program counter: a target of 2^PC_BITS faults. -/
theorem test_jmpf_overflow :
    faultOf (exec (.jmpf 0 0 0) (presetReg 0 14 (State.create { Config.default with pcBits := 4 }))) =
      some (.pcOverflow 16 0) := by decide
/-- V4, the columns that tell the six apart. -/
theorem test_eq : flagAndPc (.eq 1 2 255) 3 3 = some (true, 4) ∧ flagAndPc (.eq 1 2 0) (-1) 0 = some (false, 4) := by decide
theorem test_neq : flagAndPc (.neq 1 2 0) 3 3 = some (false, 4) ∧ flagAndPc (.neq 1 2 0) (-1) 0 = some (true, 4) := by decide
theorem test_lt : flagAndPc (.lt 1 2 0) (-1) 0 = some (true, 4) ∧ flagAndPc (.lt 1 2 0) 3 3 = some (false, 4) := by decide
theorem test_gt : flagAndPc (.gt 1 2 0) 0 (-1) = some (true, 4) ∧ flagAndPc (.gt 1 2 0) (-1) 0 = some (false, 4) := by decide
theorem test_ltq : flagAndPc (.ltq 1 2 0) 3 3 = some (true, 4) ∧ flagAndPc (.ltq 1 2 0) 0 (-1) = some (false, 4) := by decide
theorem test_gtq : flagAndPc (.gtq 1 2 0) 3 3 = some (true, 4) ∧ flagAndPc (.gtq 1 2 0) (-1) 0 = some (false, 4) := by decide
/-- V6. -/
theorem test_jeq :
    nextOf (fun t => t.pc) (exec (.jeq 0 0 0) (presetEqf true (presetReg 0 7 State.reset))) = some 7 ∧
    nextOf (fun t => t.pc) (exec (.jeq 0 0 0) (presetReg 0 (wrap32 (-1)) State.reset)) = some 4 := by decide
theorem test_jeq_checked_when_not_taken : faultOf (exec (.jeq 33 0 0) State.reset) = some (.registerOutOfRange 33 0) := by decide
theorem test_jneq :
    nextOf (fun t => t.pc) (exec (.jneq 7 0 0) (presetReg 7 44 State.reset)) = some 44 ∧
    nextOf (fun t => t.pc) (exec (.jneq 7 0 0) (presetEqf true (presetReg 7 44 State.reset))) = some 4 := by decide
/-- W3, W4. -/
theorem test_hlt : nextOf (fun t => (t.pc, t.report)) (step (boot [6])) = some (1, some (.halted .hlt)) := by decide
theorem test_illegal :
    nextOf (fun t => (t.pc, t.report)) (step (boot [200])) = some (1, some (.halted (.illegal 200))) := by decide

/-! ## Events and the host -/

/-- V7. -/
theorem test_end_of_buffer :
    nextOf (fun t => (t.pc, t.report)) (step { boot [6] with pc := 5 }) = some (5, some (.halted .endOfBuffer)) := by decide
theorem test_truncated : faultOf (step (boot [1, 0, 0])) = some (.truncatedInstruction 0) := by decide
/-- V3: the range check comes before the zero divisor. -/
theorem test_priority : faultOf (step (boot [4, 40, 1, 2])) = some (.registerOutOfRange 40 0) := by decide
/-- P4: a fault, the host's repair, and the run to its end. -/
theorem test_fault_and_recovery :
    ((run 2 (presetReg 0 9 (boot [4, 0, 1, 2, 6]))).map fun p => (p.1, p.2.pc)) =
      some (.faulted (.divideByZero 0), 0) ∧
    ((run 2 (presetReg 1 3 (presetReg 0 9 (boot [4, 0, 1, 2, 6])))).map fun p => (p.1, p.2.pc, p.2.reg 2)) =
      some (.halted .hlt, 5, 3) := by decide
/-- R100: an append at capacity is refused. -/
theorem test_append_full :
    (appendBytes [1, 2] (State.create { Config.default with maxProgramLen := 1 })).1 = .bufferFull := by decide
/-- A table row stored where the step fetches runs as the first instruction after reset. -/
theorem test_with_fetch_word :
    nextOf (fun t => (t.reg 31).toInt) (step (State.reset.withFetchWord 32 0x001F8000)) = some (-32768) ∧
    nextOf (fun t => t.pc) (step (State.reset.withFetchWord 8 0x06)) = some 1 := by decide
/-- V7 and W2 against the pseudocode of R97. -/
theorem test_reference :
    nextOf (fun t => (t.reg 0, t.pc)) (Reference.step (boot [0, 0, 1, 0xF4])) = some (500, 4) ∧
    faultOf (Reference.step (boot [1, 0, 0])) = some (.truncatedInstruction 0) := by decide

/-! ## Witnesses: every statement's hypotheses are met together -/

theorem reset_inv : State.reset.Inv := ⟨by decide, by decide, by decide, by decide, by decide⟩

theorem boot_inv : (boot [0, 0, 1]).Inv := ⟨by decide, by decide, by decide, by decide, by decide⟩

theorem witness_DecodeInvertsEncode :
    OpcodeMap.wf OpcodeMap.default = true ∧ (Instr.illegal 17).wf = true ∧ (Instr.jmp 255 32 0).wf = true ∧
    encode OpcodeMap.default (.jmp 255 32 0) = some [5, 255, 32, 0] := by decide

theorem witness_EncodeInvertsDecode :
    OpcodeMap.wf OpcodeMap.default = true ∧ decode OpcodeMap.default [0, 1, 2, 3, 4] = .ok (.load 1 0x203, [4]) :=
  ⟨by decide, rfl⟩

theorem witness_OpcodeMapIsBijection :
    OpcodeMap.wf OpcodeMap.default = true ∧ decodeOpcode OpcodeMap.default 16 = some .jneq ∧ (16 : Byte).toNat ≤ 16 := by decide

theorem witness_DefaultOpcodeBytes : 17 ≤ (17 : Byte).toNat ∧ 17 ≤ (255 : Byte).toNat := by decide

theorem witness_LengthFollowsFromOpcodeByte :
    decode OpcodeMap.default [6] = .ok (.hlt, []) ∧ decode OpcodeMap.default [17] = .ok (.illegal 17, []) ∧
    decode OpcodeMap.default [16, 0, 0, 0] = .ok (.jneq 0 0 0, []) := ⟨rfl, rfl, rfl⟩

theorem witness_EncoderTruncatesImmediate : (255 : Nat) ≤ 255 := by decide

theorem witness_AssembledLineRunsInOneStep :
    State.reset.Inv ∧ State.reset.pc = State.reset.len ∧
    assemble State.reset.cfg.opcodeMap ⟨some .load, [.reg 0, .imm 100]⟩ = .ok [0, 0, 0, 100] ∧
    appendBytes [0, 0, 0, 100] State.reset = (.ok, boot [0, 0, 0, 100]) :=
  ⟨reset_inv, rfl, rfl, by decide⟩

theorem witness_StepRunsDecodedInstruction :
    decode (boot [6]).cfg.opcodeMap (fetchBytes (boot [6])) = .ok (.hlt, []) := rfl

/-- The bytes stand at an offset that is no multiple of 4, and the state holds an unused slot above 31. -/
theorem witness_StepRunsInstructionAtPc :
    State.HoldsAt { boot [6, 5, 0, 0x63, 0x63] with pc := 1 } 1 (.jmp 0 0x63 0x63) ∧ (Instr.jmp 0 0x63 0x63).wf = true ∧
    Config.wf { boot [6, 5, 0, 0x63, 0x63] with pc := 1 }.cfg = true := by
  refine ⟨fun k b h => ?_, by decide, by decide⟩
  have e : (Instr.jmp 0 0x63 0x63).bytes OpcodeMap.default = [5, 0, 0x63, 0x63] := by decide
  change ((Instr.jmp 0 0x63 0x63).bytes OpcodeMap.default)[k]? = some b at h
  rw [e] at h
  match k with
  | 0 | 1 | 2 | 3 => cases h; rfl
  | k + 4 => simp at h

theorem witness_StepAtEndOfBufferHalts : (boot [6]).len ≤ { boot [6] with pc := 1 }.pc := by decide

theorem witness_TruncatedInstructionFaults :
    (boot [1, 0, 0]).progByte (boot [1, 0, 0]).pc = some 1 ∧
    decodeOpcode (boot [1, 0, 0]).cfg.opcodeMap 1 = some .add ∧ (boot [1, 0, 0]).len - (boot [1, 0, 0]).pc < 4 := by decide

theorem witness_FirstBadUsedSlotFaults :
    (Instr.add 31 32 33).usedSlots.find? (fun b => decide (32 ≤ b.toNat)) = some 32 ∧
    (Instr.jmp 31 32 255).usedSlots.find? (fun b => decide (32 ≤ b.toNat)) = none := by decide

/-- Each clause of the priority at its boundary: at the end, an unmapped byte, HLT, three bytes left, a bad used slot, and
none. -/
theorem witness_EventPriority :
    (boot []).len ≤ (boot []).pc ∧
    ((boot [17]).progByte 0 = some 17 ∧ decodeOpcode OpcodeMap.default 17 = none) ∧
    ((boot [6]).progByte 0 = some 6 ∧ decodeOpcode OpcodeMap.default 6 = some .hlt) ∧
    ((boot [4, 0, 0]).progByte 0 = some 4 ∧ decodeOpcode OpcodeMap.default 4 = some .div ∧
      (boot [4, 0, 0]).len < (boot [4, 0, 0]).pc + 4) ∧
    ((boot [4, 32, 0, 0]).progByte 1 = some 32 ∧ (boot [4, 32, 0, 0]).progByte 2 = some 0 ∧
      (boot [4, 32, 0, 0]).progByte 3 = some 0 ∧
      (instrOf .div 32 0 0).usedSlots.find? (fun b => decide (32 ≤ b.toNat)) = some 32) ∧
    (instrOf .div 31 0 0).usedSlots.find? (fun b => decide (32 ≤ b.toNat)) = none ∧
    faultOf (step (boot [4, 31, 0, 0])) = some (.divideByZero 0) := by decide

/-- A step that raises each of the six faults. -/
theorem witness_FaultsHaveTheirCauses :
    faultOf (step (boot [4, 0, 0, 0])) = some (.divideByZero 0) ∧
    faultOf (step (boot [4, 32, 0, 0])) = some (.registerOutOfRange 32 0) ∧
    faultOf (step (presetReg 0 3 (boot [8, 0, 0, 0]))) = some (.pcUnderflow (-1) 0) ∧
    faultOf (step (presetReg 0 (wrap32 (-1)) (boot [5, 0, 0, 0]))) = some (.negativeJumpTarget (wrap32 (-1)) 0) ∧
    faultOf (step (boot [5, 0, 0])) = some (.truncatedInstruction 0) ∧
    faultOf (step (presetReg 0 8 (appendBytes [5, 0, 0, 0]
      (State.create { Config.default with pcBits := 3, maxProgramLen := 7 })).2)) = some (.pcOverflow 8 0) := by decide

theorem witness_FaultChangesNothing : step (boot [4, 0, 0, 0]) = .fault (.divideByZero 0) := rfl

theorem witness_FaultRepeatsUntilHostActs :
    (hostStep (boot [4, 0, 0, 0])).map (fun p => p.1) = some (.faulted (.divideByZero 0)) := by decide

/-- The three halts. -/
theorem witness_HaltsExactlyWhen :
    fetch (boot [6]) = .ok .hlt ∧ (boot []).len ≤ (boot []).pc ∧ fetch (boot [200]) = .ok (.illegal 200) :=
  ⟨rfl, by decide, rfl⟩

/-- A DIV writes the remainder, and a LOAD does not. -/
theorem witness_RemainderAndReportAreNeverRead :
    nextOf (fun t => t.rem.toInt) (step (presetReg 1 2 (presetReg 0 7 (boot [4, 0, 1, 3])))) = some 1 ∧
    nextOf (fun t => t.rem.toInt) (step (boot [0, 0, 1, 0xF4])) = some 0 ∧
    faultOf (step (boot [4, 0, 0, 0])) = some (.divideByZero 0) := by decide

theorem witness_InstructionFrame :
    nextOf (fun t => t.reg 31) (exec (.add 0 1 31) State.reset) = some 0 ∧
    (Instr.add 0 1 31).writesEqf = false ∧ (Instr.add 0 1 31).writesRem = false := by decide

theorem witness_NoStepWritesTheBuffer : (hostStep (boot [6])).map (fun p => p.1) = some (.halted .hlt) := by decide

theorem witness_EveryStepKeepsInvariant :
    State.reset.Inv ∧ nextOf (fun t => t.pc) (step State.reset) = some 0 := ⟨reset_inv, by decide⟩

theorem witness_NewEngineMeetsInvariant : Config.default.wf = true := by decide

/-- In range, out of range and truncated: the hypotheses of every clause of an instruction rule, at the boundary 31 / 32. -/
theorem witness_slots :
    (31 : Byte).toNat = (31 : Fin 32) ∧ (0 : Byte).toNat = (0 : Fin 32) ∧ 32 ≤ (32 : Byte).toNat ∧ 32 ≤ (255 : Byte).toNat ∧
    (31 : Byte).toNat < 32 := by decide

theorem witness_FourByteForm (k : Opcode) :
    (boot [encodeOpcode OpcodeMap.default k, 0, 0]).cfg.wf = true ∧
    (boot [encodeOpcode OpcodeMap.default k, 0, 0]).progByte (boot [encodeOpcode OpcodeMap.default k, 0, 0]).pc =
      some (encodeOpcode (boot [encodeOpcode OpcodeMap.default k, 0, 0]).cfg.opcodeMap k) ∧
    (boot [encodeOpcode OpcodeMap.default k, 0, 0]).len - (boot [encodeOpcode OpcodeMap.default k, 0, 0]).pc < 4 := by
  cases k <;> decide

theorem witness_DivWritesQuotientAndRemainder : (withX12 7 2 State.reset).reg 2 ≠ 0 ∧ (2 : Byte).toNat = (2 : Fin 32) := by decide

theorem witness_DivideByZeroFaults : (withX12 7 0 State.reset).reg 2 = 0 ∧ (2 : Byte).toNat = (2 : Fin 32) := by decide

theorem witness_DivisionOverflowWraps :
    ((withX12 (-2147483648) (-1) State.reset).reg 1).toInt = -2147483648 ∧
    ((withX12 (-2147483648) (-1) State.reset).reg 2).toInt = -1 := by decide

theorem witness_DivisionRoundsTowardZero : (-2 : Int) ≠ 0 := by decide

theorem witness_ArithmeticIsTwosComplement : (BitVec.ofInt 32 (-1) : Word) ≠ 0 ∧ (1 : Word) ≠ 0 := by decide

/-- A target at the highest program counter, one past it, and a negative one, under a 3-bit program counter. -/
theorem witness_AbsoluteJump :
    ((presetReg 0 7 (State.create { Config.default with pcBits := 3 })).reg 0).toInt = (7 : Nat) ∧ 7 < 2 ^ 3 ∧
    ((2 ^ 3 : Nat) : Int) ≤ ((presetReg 0 8 (State.create { Config.default with pcBits := 3 })).reg 0).toInt ∧
    ((presetReg 0 (wrap32 (-1)) State.reset).reg 0).toInt < 0 := by decide

/-- The same for the relative targets of JMPF and JMPB from address 0. -/
theorem witness_RelativeJumpRule :
    ((0 : Nat) + 2 : Int) + ((presetReg 0 5 (State.create { Config.default with pcBits := 3 })).reg 0).toInt = (7 : Nat) ∧
    ((2 ^ 3 : Nat) : Int) ≤ ((0 : Nat) + 2 : Int) + ((presetReg 0 6 (State.create { Config.default with pcBits := 3 })).reg 0).toInt ∧
    ((0 : Nat) + 2 : Int) + ((presetReg 0 (wrap32 (-3)) State.reset).reg 0).toInt < 0 ∧
    ((0 : Nat) + 2 : Int) - ((presetReg 0 2 State.reset).reg 0).toInt = (0 : Nat) ∧
    ((2 ^ 3 : Nat) : Int) ≤
      ((0 : Nat) + 2 : Int) - ((presetReg 0 (wrap32 (-6)) (State.create { Config.default with pcBits := 3 })).reg 0).toInt ∧
    ((0 : Nat) + 2 : Int) - ((presetReg 0 3 State.reset).reg 0).toInt < 0 := by decide

theorem witness_RelativeOffsetReachesTarget :
    ((presetReg 0 (wrap32 (-2)) State.reset).reg 0).toInt = (0 : Nat) - (State.reset.pc + 2 : Int) ∧
    ((presetReg 0 2 State.reset).reg 0).toInt = (State.reset.pc + 2 : Int) - (0 : Nat) ∧
    0 < 2 ^ State.reset.cfg.pcBits := by decide

theorem witness_ConditionalJumpRule :
    (presetEqf true State.reset).eqf = true ∧ State.reset.eqf ≠ true ∧ State.reset.eqf = false ∧
    (presetEqf true State.reset).eqf ≠ false := by decide

theorem witness_HltHaltsPastItsByte : (boot [6]).cfg.wf = true ∧ (boot [6]).progByte (boot [6]).pc = some 6 := by decide

theorem witness_IllegalHaltsPastItsByte :
    (boot [17]).cfg.wf = true ∧ 17 ≤ (17 : Byte).toNat ∧ (boot [17]).progByte (boot [17]).pc = some 17 := by decide

/-- One step, a LOAD, that executes neither a comparison nor a DIV, from a state whose flag is true. -/
theorem witness_FlagAndRemainderPersist :
    ∃ t, StepsAvoiding Instr.writesEqf 1 (presetEqf true (boot [0, 0, 1, 0xF4])) t ∧
      StepsAvoiding Instr.writesRem 1 (presetEqf true (boot [0, 0, 1, 0xF4])) t ∧ t.eqf = true :=
  ⟨_, ⟨_, rfl, fun _ h => by cases h; rfl, rfl⟩, ⟨_, rfl, fun _ h => by cases h; rfl, rfl⟩, rfl⟩

theorem witness_RunEndsInOneWay : ∃ t, RunEnds (boot [6]) (.halted .hlt) t := ⟨_, 1, rfl⟩

theorem witness_SelfJumpNeverEnds :
    fetch (boot [5, 31, 0, 0]) = .ok (.jmp 31 0 0) ∧ ((boot [5, 31, 0, 0]).reg 31).toInt = (boot [5, 31, 0, 0]).pc ∧
    (boot [5, 31, 0, 0]).pc < 2 ^ (boot [5, 31, 0, 0]).cfg.pcBits := ⟨rfl, by decide, by decide⟩

/-- Room for a byte, and an engine that is full. -/
theorem witness_AppendPlacesByteAtTheEnd :
    (State.reset.Inv ∧ State.reset.len < State.reset.cfg.maxProgramLen) ∧
    (State.create { Config.default with maxProgramLen := 0 }).Inv ∧
    (State.create { Config.default with maxProgramLen := 0 }).cfg.maxProgramLen ≤
      (State.create { Config.default with maxProgramLen := 0 }).len :=
  ⟨⟨reset_inv, by decide⟩, ⟨by decide, by decide, by decide, by decide, by decide⟩, by decide⟩

theorem witness_PresetsReachOnlyTheirTarget :
    2 ^ 64 - 1 < 2 ^ State.reset.cfg.pcBits ∧ 2 ^ State.reset.cfg.pcBits ≤ 2 ^ 64 := by decide

theorem witness_HostKeepsInvariant :
    State.reset.Inv ∧ (presetPc (2 ^ 64 - 1) State.reset).map (fun t => t.pc) = some (2 ^ 64 - 1) ∧
    (hostStep State.reset).map (fun p => p.1) = some (.halted .endOfBuffer) ∧
    ∃ t, RunEnds State.reset (.halted .endOfBuffer) t := ⟨reset_inv, by decide, by decide, _, 1, rfl⟩

theorem witness_BootGivesCleanLaunch :
    Config.default.wf = true ∧ ([0, 0, 1, 0xF4, 6] : List Byte).length ≤ Config.default.maxProgramLen := by decide

theorem witness_AppendingCompletesTruncatedInstruction :
    (boot [0, 0, 1]).Inv ∧ step (boot [0, 0, 1]) = .fault (.truncatedInstruction (boot [0, 0, 1]).pc) ∧
    appendBytes [0xF4] (boot [0, 0, 1]) = (.ok, boot [0, 0, 1, 0xF4]) ∧
    (boot [0, 0, 1]).pc + 4 ≤ (boot [0, 0, 1]).len + ([0xF4] : List Byte).length :=
  ⟨boot_inv, rfl, by decide, by decide⟩

end Sys2Proof.Tests
end

/-! The wrapping of exact results to 32-bit words (spec/00_scope.md R12). -/

namespace Sys2Proof.Machine

theorem toInt_wrap32 (z : Int) : (wrap32 z).toInt = z.bmod 4294967296 :=
  BitVec.toInt_ofInt z

@[simp] theorem wrap32_toInt (w : Word) : wrap32 w.toInt = w :=
  BitVec.ofInt_toInt

/-- Wrapping stays in the residue class: the existence half of R12. -/
@[simp] theorem toInt_wrap32_emod (z : Int) : (wrap32 z).toInt % 4294967296 = z % 4294967296 := by
  rw [toInt_wrap32]
  exact Int.bmod_emod

/-- Wrapping sees the residue class only: the uniqueness half of R12. -/
theorem wrap32_eq_wrap32_of_emod_eq {y z : Int} (h : y % 4294967296 = z % 4294967296) : wrap32 y = wrap32 z := by
  apply BitVec.eq_of_toInt_eq
  calc (wrap32 y).toInt
      _ = (y % 4294967296).bmod 4294967296 := by rw [toInt_wrap32]; exact (Int.emod_bmod y 4294967296).symm
      _ = (z % 4294967296).bmod 4294967296 := by rw [h]
      _ = (wrap32 z).toInt := by rw [toInt_wrap32]; exact Int.emod_bmod z 4294967296

/-- Settles O38: a word is its own wrapping, and two integers wrap to the same word when they are congruent. -/
theorem wrapIsTheCongruentValue : Obligations.WrapIsTheCongruentValue := by
  intro z w
  constructor
  · rintro rfl
    exact toInt_wrap32_emod z
  · intro hcongr
    calc wrap32 z
        _ = wrap32 w.toInt := wrap32_eq_wrap32_of_emod_eq hcongr.symm
        _ = w := wrap32_toInt w

end Sys2Proof.Machine

/-!
What a step keeps, and what it does not read: the frame of every next state, the invariant of the engine's states, and the
independence of a step from the remainder register and from the last report (spec/10_state.md).
-/

namespace Sys2Proof.Machine

/-! ## Registers -/

/-- Settles O29, by read after write on the register file (R22). -/
theorem registersAreIndependent : Obligations.RegistersAreIndependent := by
  refine ⟨fun s r r' v => ?_, fun cfg r => State.reg_create cfg r⟩
  simp only [State.reg_setReg, eq_comm (a := r)]

/-! ## The next states of the remaining operations -/

theorem withReg_next {b : Byte} {s t : State} {k : Fin 32 → Result} (h : withReg b s k = .next t) :
    ∃ r : Fin 32, b.toNat = r ∧ k r = .next t := by
  rcases withReg_cases b s k with ⟨-, e⟩ | ⟨r, hr, e⟩ <;> rw [e] at h
  · cases h
  · exact ⟨r, hr, h⟩

theorem execLoad_next {s1 : Byte} {imm : Half} {s t : State} (h : execLoad s1 imm s = .next t) :
    ∃ d : Fin 32, s1.toNat = d ∧
      t = { s.setReg d (widenImm s.cfg.loadImmExt imm) with pc := s.pc + 4, report := some .continued } := by
  obtain ⟨d, hd, h⟩ := withReg_next h
  exact ⟨d, hd, (continueAt_eq_next _ _ _).1 h⟩

theorem execDiv_next {s1 s2 s3 : Byte} {s t : State} (h : execDiv s1 s2 s3 s = .next t) :
    ∃ r1 r2 r3 : Fin 32, s1.toNat = r1 ∧ s2.toNat = r2 ∧ s3.toNat = r3 ∧ (s.reg r2).toInt ≠ 0 ∧
      t = { s.setReg r3 (wrap32 (tdiv (s.reg r1).toInt (s.reg r2).toInt)) with
        rem := wrap32 (trem (s.reg r1).toInt (s.reg r2).toInt), pc := s.pc + 4, report := some .continued } := by
  obtain ⟨r1, h1, h⟩ := withReg_next h
  obtain ⟨r2, h2, h⟩ := withReg_next h
  obtain ⟨r3, h3, h⟩ := withReg_next h
  split_ifs at h with hz
  · exact absurd h (raise_ne_next _ _ _)
  · exact ⟨r1, r2, r3, h1, h2, h3, hz, (continueAt_eq_next _ _ _).1 h⟩

/-! ## The frame -/

/-- What the next state `t` keeps of `s` when the step consumes `n` bytes and may write only the register that the slot
`dest` names, the flag if `flag`, and the remainder register if `remainder`. The program counter advances by `n`, or a
jump has checked its target against 2^PC_BITS. -/
structure Frame (dest : Option Byte) (flag remainder : Bool) (n : Nat) (s t : State) : Prop where
  reg : ∀ r : Fin 32, (∀ d, dest = some d → d.toNat ≠ r.val) → t.reg r = s.reg r
  eqf : flag = false → t.eqf = s.eqf
  rem : remainder = false → t.rem = s.rem
  prog : t.prog = s.prog
  len : t.len = s.len
  cfg : t.cfg = s.cfg
  pc : t.pc = s.pc + n ∨ t.pc < 2 ^ s.cfg.pcBits

theorem Frame.progByte {dest : Option Byte} {flag remainder : Bool} {n : Nat} {s t : State}
    (h : Frame dest flag remainder n s t) (a : Nat) : t.progByte a = s.progByte a := by
  simp only [State.progByte, h.prog, h.len]

/-- The registers' clause of a frame, where the step writes the one register that its destination slot names. -/
theorem reg_setReg_of_not_dest {d : Byte} {r r' : Fin 32} (hd : d.toNat = r) (s : State) (v : Word)
    (hne : ∀ d', some d = some d' → d'.toNat ≠ r'.val) : (s.setReg r v).reg r' = s.reg r' :=
  State.reg_setReg_of_ne s v fun e => hne d rfl (by rw [hd, e])

/-- A step that moves the program counter and reports writes nothing else. -/
theorem frame_of_pc_report {n p : Nat} {s : State} (hp : p = s.pc + n ∨ p < 2 ^ s.cfg.pcBits) (o : Option Report) :
    Frame none false false n s { s with pc := p, report := o } :=
  ⟨fun _ _ => rfl, fun _ => rfl, fun _ => rfl, rfl, rfl, rfl, hp⟩

theorem haltAt_frame {reason : HaltReason} {n : Nat} {s t : State} (h : haltAt reason (s.pc + n) s = .next t) :
    Frame none false false n s t := by
  rw [(haltAt_eq_next _ _ _ _).1 h]
  exact frame_of_pc_report (.inl rfl) _

theorem absoluteJump_frame {v : Word} {n : Nat} {s t : State} (h : absoluteJump v s = .next t) :
    Frame none false false n s t := by
  obtain ⟨h0, hlt, rfl⟩ := absoluteJump_next h
  exact frame_of_pc_report (.inr ((Int.toNat_lt h0).2 hlt)) _

theorem relativeJump_frame {target : Int} {n : Nat} {s t : State} (h : relativeJump target s = .next t) :
    Frame none false false n s t := by
  obtain ⟨h0, hlt, rfl⟩ := relativeJump_next h
  exact frame_of_pc_report (.inr ((Int.toNat_lt h0).2 hlt)) _

theorem condJump_frame {taken : Bool} {s1 : Byte} {s t : State} (h : condJump taken s1 s = .next t) :
    Frame none false false 4 s t := by
  obtain ⟨r, -, ⟨-, h0, hlt, rfl⟩ | ⟨-, rfl⟩⟩ := condJump_next h
  · exact frame_of_pc_report (.inr ((Int.toNat_lt h0).2 hlt)) _
  · exact frame_of_pc_report (.inl rfl) _

theorem compareWith_frame {cmp : Word → Word → Bool} {s1 s2 : Byte} {s t : State}
    (h : compareWith cmp s1 s2 s = .next t) : Frame none true false 4 s t := by
  obtain ⟨r1, r2, -, -, rfl⟩ := compareWith_next h
  exact ⟨fun _ _ => rfl, nofun, fun _ => rfl, rfl, rfl, rfl, .inl rfl⟩

theorem arith_frame {f : Int → Int → Int} {s1 s2 s3 : Byte} {s t : State} (h : arith f s1 s2 s3 s = .next t) :
    Frame (some s3) false false 4 s t := by
  obtain ⟨r1, r2, r3, -, -, h3, rfl⟩ := arith_next h
  exact ⟨fun _ => reg_setReg_of_not_dest h3 s _, fun _ => rfl, fun _ => rfl, rfl, rfl, rfl, .inl rfl⟩

theorem execDiv_frame {s1 s2 s3 : Byte} {s t : State} (h : execDiv s1 s2 s3 s = .next t) :
    Frame (some s3) false true 4 s t := by
  obtain ⟨r1, r2, r3, -, -, h3, -, rfl⟩ := execDiv_next h
  exact ⟨fun _ => reg_setReg_of_not_dest h3 s _, fun _ => rfl, nofun, rfl, rfl, rfl, .inl rfl⟩

theorem execLoad_frame {s1 : Byte} {imm : Half} {s t : State} (h : execLoad s1 imm s = .next t) :
    Frame (some s1) false false 4 s t := by
  obtain ⟨d, hd, rfl⟩ := execLoad_next h
  exact ⟨fun _ => reg_setReg_of_not_dest hd s _, fun _ => rfl, fun _ => rfl, rfl, rfl, rfl, .inl rfl⟩

/-- Every instruction writes at most what its row of R66 names, one family at a time. -/
theorem exec_frame {i : Instr} {s t : State} (h : exec i s = .next t) :
    Frame i.destSlot i.writesEqf i.writesRem i.length s t := by
  cases i with
  | load => exact execLoad_frame h
  | add | sub | mul => exact arith_frame h
  | div => exact execDiv_frame h
  | jmp =>
    obtain ⟨r, -, h⟩ := withReg_next h
    exact absoluteJump_frame h
  | jmpf | jmpb =>
    obtain ⟨r, -, h⟩ := withReg_next h
    exact relativeJump_frame h
  | eq | neq | lt | gt | ltq | gtq => exact compareWith_frame h
  | jeq | jneq => exact condJump_frame h
  | hlt | illegal => exact haltAt_frame h

/-- Settles O24, by the frame of each instruction. -/
theorem instructionFrame : Obligations.InstructionFrame := by
  intro i s t h
  have hframe := exec_frame h
  exact ⟨hframe.reg, hframe.eqf, hframe.rem, hframe.progByte, hframe.len, hframe.cfg⟩

/-- Every next state of a step is framed by the instruction fetched, or is that of a halt at the buffer's end, which
consumes no byte. -/
theorem step_frame {s t : State} (h : step s = .next t) :
    (∃ i, fetch s = .ok i ∧ Frame i.destSlot i.writesEqf i.writesRem i.length s t) ∨
      Frame none false false 0 s t := by
  rcases step_cases s with ⟨i, hi, e⟩ | ⟨-, e⟩ | ⟨-, e⟩ <;> rw [e] at h
  · exact .inl ⟨i, hi, exec_frame h⟩
  · exact .inr (haltAt_frame h)
  · cases h

/-! ## Persistence over many steps -/

theorem step_eqf_of_avoids {s t : State} (h : step s = .next t)
    (havoid : ∀ i, fetch s = .ok i → i.writesEqf = false) : t.eqf = s.eqf := by
  rcases step_frame h with ⟨i, hi, hframe⟩ | hframe
  · exact hframe.eqf (havoid i hi)
  · exact hframe.eqf rfl

theorem step_rem_of_avoids {s t : State} (h : step s = .next t)
    (havoid : ∀ i, fetch s = .ok i → i.writesRem = false) : t.rem = s.rem := by
  rcases step_frame h with ⟨i, hi, hframe⟩ | hframe
  · exact hframe.rem (havoid i hi)
  · exact hframe.rem rfl

/-- What one step keeps where it executes none of the instructions `p`, any number of such steps keeps. -/
theorem stepsAvoiding_keeps {α : Type} {p : Instr → Bool} {field : State → α}
    (hstep : ∀ s u, step s = .next u → (∀ i, fetch s = .ok i → p i = false) → field u = field s) :
    ∀ {n : Nat} {s t : State}, StepsAvoiding p n s t → field t = field s
  | 0, _, _, h => congrArg field h
  | _ + 1, s, t, ⟨u, hu, havoid, hrest⟩ =>
    calc field t
      _ = field u := stepsAvoiding_keeps hstep hrest
      _ = field s := hstep s u hu havoid

/-- Settles O49, by induction on the number of steps. -/
theorem flagAndRemainderPersist : Obligations.FlagAndRemainderPersist := fun _ _ _ =>
  ⟨stepsAvoiding_keeps fun _ _ => step_eqf_of_avoids, stepsAvoiding_keeps fun _ _ => step_rem_of_avoids⟩

/-! ## The invariant -/

theorem instrOf_length {k : Opcode} (hk : k ≠ .hlt) (b1 b2 b3 : Byte) : (instrOf k b1 b2 b3).length = 4 := by
  cases k with
  | hlt => exact absurd rfl hk
  | _ => rfl

/-- The decoder consumes exactly the bytes of the instruction's length (R69, R70). -/
theorem decode_length {m : OpcodeMap} {bs rest : List Byte} {i : Instr} (h : decode m bs = .ok (i, rest)) :
    bs.length = i.length + rest.length := by
  rcases decode_cases m bs with ⟨-, e⟩ | ⟨op, tail, rfl, hcase⟩
  · rw [e] at h
    cases h
  · rcases hcase with ⟨-, e⟩ | ⟨-, e⟩ | ⟨k, -, -, -, e⟩ | ⟨k, b1, b2, b3, tail', -, hk, rfl, e⟩ <;>
      rw [e] at h <;> cases h
    · exact Nat.add_comm _ _
    · exact Nat.add_comm _ _
    · simp only [instrOf_length hk, List.length_cons]
      omega

theorem fetch_eq_ok {s : State} {i : Instr} :
    fetch s = .ok i ↔ ∃ rest, decode s.cfg.opcodeMap (fetchBytes s) = .ok (i, rest) := by
  unfold fetch
  cases decode s.cfg.opcodeMap (fetchBytes s) with
  | error e => simp
  | ok p => simp [Prod.ext_iff]

theorem arityClass_length_pos (c : ArityClass) : 0 < c.length := by
  cases c <;> decide

theorem instr_length_pos (i : Instr) : 0 < i.length := by
  unfold Instr.length
  cases i.opcode with
  | none => exact Nat.one_pos
  | some k => exact arityClass_length_pos k.arity

/-- A fetched instruction lies wholly within the buffer. -/
theorem fetch_length_le {s : State} {i : Instr} (h : fetch s = .ok i) : s.pc + i.length ≤ s.len := by
  obtain ⟨rest, hdec⟩ := fetch_eq_ok.1 h
  have hlen := decode_length hdec
  have hfetched : (fetchBytes s).length = min 4 (s.len - s.pc) := State.bytesFrom_length s 4 s.pc
  have hpos := instr_length_pos i
  omega

theorem maxProgramLen_lt_of_wf {c : Config} (h : c.wf = true) : c.maxProgramLen < 2 ^ c.pcBits := by
  simp only [Config.wf, Bool.and_eq_true, decide_eq_true_eq] at h
  exact h.2

/-- A framed step keeps the invariant when advancing past the bytes it consumes stays below 2^PC_BITS (R29). -/
theorem Frame.inv {dest : Option Byte} {flag remainder : Bool} {n : Nat} {s t : State}
    (h : Frame dest flag remainder n s t) (hs : s.Inv) (hn : s.pc + n < 2 ^ s.cfg.pcBits) : t.Inv where
  cfg_wf := h.cfg ▸ hs.cfg_wf
  prog_wf := h.prog ▸ hs.prog_wf
  prog_below_len := by
    rw [h.prog, h.len]
    exact hs.prog_below_len
  len_le := by
    rw [h.len, h.cfg]
    exact hs.len_le
  pc_lt := by
    rw [h.cfg]
    rcases h.pc with hpc | hpc
    · exact hpc ▸ hn
    · exact hpc

/-- Settles O26: a jump has checked its target, and sequential advance stays within the buffer, whose length is bounded by
the capacity. -/
theorem everyStepKeepsInvariant : Obligations.EveryStepKeepsInvariant := by
  intro s t hs h
  rcases step_frame h with ⟨i, hi, hframe⟩ | hframe
  · refine hframe.inv hs ?_
    calc s.pc + i.length
      _ ≤ s.len := fetch_length_le hi
      _ ≤ s.cfg.maxProgramLen := hs.len_le
      _ < 2 ^ s.cfg.pcBits := maxProgramLen_lt_of_wf hs.cfg_wf
  · exact hframe.inv hs hs.pc_lt

/-! ## The remainder and the report are not read -/

/-- `s` with other values in the two fields that no step reads. -/
def State.withRemReport (v : Word) (o : Option Report) (s : State) : State :=
  { s with rem := v, report := o }

/-- An outcome with its next state, if it has one, changed by `g`. -/
def mapNext (g : State → State) : Result → Result
  | .next t => .next (g t)
  | .fault f => .fault f
  | .refused r => .refused r

theorem mapNext_eq_fault (g : State → State) (o : Result) (f : Fault) : mapNext g o = .fault f ↔ o = .fault f := by
  cases o <;> simp [mapNext]

section

variable (v : Word) (o : Option Report) (s : State)

theorem withReg_withRemReport (b : Byte) {k k' : Fin 32 → Result} (g : State → State)
    (hk : ∀ r, k' r = mapNext g (k r)) :
    withReg b (s.withRemReport v o) k' = mapNext g (withReg b s k) := by
  unfold withReg
  cases regOf b with
  | none => rfl
  | some r => exact hk r

theorem absoluteJump_withRemReport (w : Word) :
    absoluteJump w (s.withRemReport v o) = mapNext (State.setRem v) (absoluteJump w s) := by
  simp only [absoluteJump, apply_ite (mapNext (State.setRem v))]
  rfl

theorem relativeJump_withRemReport (target : Int) :
    relativeJump target (s.withRemReport v o) = mapNext (State.setRem v) (relativeJump target s) := by
  simp only [relativeJump, apply_ite (mapNext (State.setRem v))]
  rfl

theorem condJump_withRemReport (taken : Bool) (s1 : Byte) :
    condJump taken s1 (s.withRemReport v o) = mapNext (State.setRem v) (condJump taken s1 s) :=
  withReg_withRemReport v o s s1 _ fun r => by
    cases taken with
    | false => rfl
    | true => exact absoluteJump_withRemReport v o s (s.reg r)

theorem compareWith_withRemReport (cmp : Word → Word → Bool) (s1 s2 : Byte) :
    compareWith cmp s1 s2 (s.withRemReport v o) = mapNext (State.setRem v) (compareWith cmp s1 s2 s) :=
  withReg_withRemReport v o s s1 _ fun _ => withReg_withRemReport v o s s2 _ fun _ => rfl

theorem arith_withRemReport (f : Int → Int → Int) (s1 s2 s3 : Byte) :
    arith f s1 s2 s3 (s.withRemReport v o) = mapNext (State.setRem v) (arith f s1 s2 s3 s) :=
  withReg_withRemReport v o s s1 _ fun _ => withReg_withRemReport v o s s2 _ fun _ =>
    withReg_withRemReport v o s s3 _ fun _ => rfl

/-- DIV overwrites both fields where it completes and neither where it faults, so it does not see them at all. -/
theorem execDiv_withRemReport (s1 s2 s3 : Byte) : execDiv s1 s2 s3 (s.withRemReport v o) = execDiv s1 s2 s3 s := rfl

/-- An instruction that does not write the remainder carries the other value through, and does nothing else with it. -/
theorem exec_withRemReport {i : Instr} (h : i.writesRem = false) :
    exec i (s.withRemReport v o) = mapNext (State.setRem v) (exec i s) := by
  cases i with
  | load s1 => exact withReg_withRemReport v o s s1 _ fun _ => rfl
  | add | sub | mul => exact arith_withRemReport v o s _ _ _ _
  | div => cases h
  | jmp s1 => exact withReg_withRemReport v o s s1 _ fun r => absoluteJump_withRemReport v o s (s.reg r)
  | jmpf s1 | jmpb s1 => exact withReg_withRemReport v o s s1 _ fun _ => relativeJump_withRemReport v o s _
  | eq | neq | lt | gt | ltq | gtq => exact compareWith_withRemReport v o s _ _ _
  | jeq | jneq => exact condJump_withRemReport v o s _ _
  | hlt | illegal => rfl

theorem exec_withRemReport_of_writesRem {i : Instr} (h : i.writesRem = true) :
    exec i (s.withRemReport v o) = exec i s := by
  cases i with
  | div s1 s2 s3 => exact execDiv_withRemReport v o s s1 s2 s3
  | _ => cases h

theorem fetch_withRemReport : fetch (s.withRemReport v o) = fetch s := rfl

/-- With other values in the two fields a step that writes the remainder answers the same, and every other step keeps the
new remainder in the state it answers. -/
theorem step_withRemReport :
    step (s.withRemReport v o) = step s ∨
      (step (s.withRemReport v o) = mapNext (State.setRem v) (step s) ∧ ∀ t, step s = .next t → t.rem = s.rem) := by
  unfold step
  rw [fetch_withRemReport]
  cases fetch s with
  | error e =>
    right
    cases e with
    | noByte => exact ⟨rfl, fun t h => (haltAt_frame (reason := .endOfBuffer) (n := 0) h).rem rfl⟩
    | truncated => exact ⟨rfl, nofun⟩
  | ok i =>
    cases hi : i.writesRem with
    | true => exact .inl (exec_withRemReport_of_writesRem v o s hi)
    | false => exact .inr ⟨exec_withRemReport v o s hi, fun t h => (exec_frame h).rem hi⟩

end

/-- Settles O23, by comparing the step with the step from the state that holds the other values. -/
theorem remainderAndReportAreNeverRead : Obligations.RemainderAndReportAreNeverRead := by
  intro s v o
  change (∀ f, step (s.withRemReport v o) = .fault f ↔ step s = .fault f) ∧
    ∀ t, step s = .next t →
      ∃ w, step (s.withRemReport v o) = .next (t.setRem w) ∧ (w = t.rem ∨ (w = v ∧ t.rem = s.rem))
  rcases step_withRemReport v o s with e | ⟨e, hrem⟩ <;> rw [e]
  · exact ⟨fun _ => Iff.rfl, fun t h => ⟨t.rem, h, .inl rfl⟩⟩
  · refine ⟨fun f => mapNext_eq_fault _ _ f, fun t h => ⟨v, ?_, .inr ⟨rfl, hrem t h⟩⟩⟩
    rw [h, mapNext]

end Sys2Proof.Machine

/-!
The program buffer (spec/20_memory.md): the engine never writes it (R45), an append writes its end alone (R44), and appended
bytes complete a truncated instruction (R52).
-/

namespace Sys2Proof.Machine

/-! ## The engine does not write the buffer -/

/-- Everything the host can be told of a step: a next state with its report, or a fault with the state the step began in. -/
theorem hostStep_eq_some {s t : State} {r : Report} :
    hostStep s = some (r, t) ↔
      (step s = .next t ∧ t.report = some r) ∨
        ∃ f, step s = .fault f ∧ r = .faulted f ∧ t = { s with report := some (.faulted f) } := by
  unfold hostStep
  cases step s with
  | next u =>
    cases hu : u.report with
    | none | some => grind
  | fault f => simp [eq_comm]
  | refused => simp

theorem step_keeps_buffer {s t : State} (h : step s = .next t) : t.prog = s.prog ∧ t.len = s.len := by
  rcases step_frame h with ⟨i, -, hframe⟩ | hframe <;> exact ⟨hframe.prog, hframe.len⟩

theorem hostStep_keeps_buffer {s t : State} {r : Report} (h : hostStep s = some (r, t)) :
    t.prog = s.prog ∧ t.len = s.len := by
  rcases hostStep_eq_some.1 h with ⟨hnext, -⟩ | ⟨f, -, -, rfl⟩
  · exact step_keeps_buffer hnext
  · exact ⟨rfl, rfl⟩

/-- Settles O25: a next state is framed by what its instruction may write, and a fault leaves the state the step began in. -/
theorem noStepWritesTheBuffer : Obligations.NoStepWritesTheBuffer := by
  intro s t r h
  obtain ⟨hprog, hlen⟩ := hostStep_keeps_buffer h
  refine ⟨fun a => ?_, hlen, hprog⟩
  simp only [State.progByte, hprog, hlen]

/-! ## Appending -/

/-- The state `t` is `s` with the bytes `bs` after the end of its buffer, and nothing else changed. -/
structure Appended (bs : List Byte) (s t : State) : Prop where
  len : t.len = s.len + bs.length
  old : ∀ a, a < s.len → t.progByte a = s.progByte a
  new : ∀ k, t.progByte (s.len + k) = bs[k]?
  frame : t = { s with prog := t.prog, len := t.len }

theorem Appended.pc {bs : List Byte} {s t : State} (h : Appended bs s t) : t.pc = s.pc := by
  rw [h.frame]

theorem Appended.cfg {bs : List Byte} {s t : State} (h : Appended bs s t) : t.cfg = s.cfg := by
  rw [h.frame]

theorem State.placeByte_len_self (s : State) (b : Byte) : (s.placeByte s.len b).len = s.len + 1 :=
  Nat.max_eq_right (Nat.le_succ s.len)

/-- Settles O52, by read after write at the buffer's end. -/
theorem appendPlacesByteAtTheEnd : Obligations.AppendPlacesByteAtTheEnd := by
  intro s b hs
  refine ⟨fun hroom => ?_, fun hfull => if_neg (Nat.not_lt.2 hfull)⟩
  exact ⟨s.placeByte s.len b, if_pos hroom, s.placeByte_len_self b, State.progByte_placeByte_len hs.prog_wf b, rfl⟩

theorem appended_nil (s : State) : Appended [] s s where
  len := rfl
  old _ _ := rfl
  new k := State.progByte_of_le (Nat.le_add_right s.len k)
  frame := rfl

/-- One byte at the end, and then the others after it. -/
theorem Appended.cons {b : Byte} {bs : List Byte} {s t : State} (hwf : Memory.wf s.prog)
    (h : Appended bs (s.placeByte s.len b) t) : Appended (b :: bs) s t where
  len := by
    rw [h.len, State.placeByte_len_self, List.length_cons]
    omega
  old a ha := by
    rw [h.old a (by rw [State.placeByte_len_self]; omega), State.progByte_placeByte_len hwf, if_neg ha.ne]
  new k := by
    cases k with
    | zero =>
      rw [h.old _ (by rw [State.placeByte_len_self]; omega), State.progByte_placeByte_len hwf]
      simp
    | succ k =>
      have hnew := h.new k
      rw [State.placeByte_len_self] at hnew
      rw [← Nat.add_assoc, Nat.add_right_comm, hnew, List.getElem?_cons_succ]
  frame := h.frame

/-- Bytes that are all accepted stand after the buffer's end. -/
theorem appendBytes_appended : ∀ {bs : List Byte} {s t : State}, Memory.wf s.prog →
    appendBytes bs s = (.ok, t) → Appended bs s t
  | [], s, _, _, h => by
    cases h
    exact appended_nil s
  | b :: bs, s, t, hwf, h => by
    rw [appendBytes] at h
    rcases appendByte_cases b s with ⟨-, e⟩ | ⟨-, e⟩ <;> rw [e] at h
    · exact .cons hwf (appendBytes_appended (Memory.wf_write hwf s.len b) h)
    · cases h

/-- A fetch after an append finds the bytes that were there, and then the appended ones. -/
theorem Appended.fetchBytes {bs : List Byte} {s t : State} (h : Appended bs s t) (hpc : s.pc ≤ s.len) :
    fetchBytes t = (fetchBytes s ++ bs).take 4 := by
  have hlen : (s.bytesFrom 4 s.pc).length = min 4 (s.len - s.pc) := s.bytesFrom_length 4 s.pc
  apply List.ext_getElem?
  intro k
  unfold Machine.fetchBytes
  rw [State.bytesFrom_getElem, h.pc, List.getElem?_take]
  split_ifs with hk
  · rcases Nat.lt_or_ge (s.pc + k) s.len with hold | hnew
    · rw [List.getElem?_append_left (by omega), State.bytesFrom_getElem, if_pos hk, h.old _ hold]
    · obtain ⟨j, hj⟩ := Nat.exists_eq_add_of_le hnew
      rw [List.getElem?_append_right (by omega), hj, h.new]
      congr 1
      omega
  · rfl

/-! ## Truncated instructions -/

/-- A range check truncates only where what follows it does. -/
theorem withReg_ne_truncated {b : Byte} {s : State} {k : Fin 32 → Result} {a : Nat}
    (hk : ∀ r, k r ≠ .fault (.truncatedInstruction a)) : withReg b s k ≠ .fault (.truncatedInstruction a) := by
  rcases withReg_cases b s k with ⟨-, e⟩ | ⟨r, -, e⟩ <;> rw [e]
  · nofun
  · exact hk r

theorem absoluteJump_ne_truncated (v : Word) (s : State) (a : Nat) :
    absoluteJump v s ≠ .fault (.truncatedInstruction a) := by
  rcases absoluteJump_cases v s with ⟨-, e⟩ | ⟨-, -, e⟩ | ⟨-, -, e⟩ <;> rw [e] <;> nofun

theorem relativeJump_ne_truncated (n : Int) (s : State) (a : Nat) :
    relativeJump n s ≠ .fault (.truncatedInstruction a) := by
  rcases relativeJump_cases n s with ⟨-, e⟩ | ⟨-, -, e⟩ | ⟨-, -, e⟩ <;> rw [e] <;> nofun

theorem condJump_ne_truncated (taken : Bool) (s1 : Byte) (s : State) (a : Nat) :
    condJump taken s1 s ≠ .fault (.truncatedInstruction a) :=
  withReg_ne_truncated fun r => by
    cases taken with
    | false => nofun
    | true => exact absoluteJump_ne_truncated (s.reg r) s a

theorem compareWith_ne_truncated (cmp : Word → Word → Bool) (s1 s2 : Byte) (s : State) (a : Nat) :
    compareWith cmp s1 s2 s ≠ .fault (.truncatedInstruction a) :=
  withReg_ne_truncated fun _ => withReg_ne_truncated fun _ => nofun

theorem arith_ne_truncated (f : Int → Int → Int) (s1 s2 s3 : Byte) (s : State) (a : Nat) :
    arith f s1 s2 s3 s ≠ .fault (.truncatedInstruction a) :=
  withReg_ne_truncated fun _ => withReg_ne_truncated fun _ => withReg_ne_truncated fun _ => nofun

theorem execDiv_ne_truncated (s1 s2 s3 : Byte) (s : State) (a : Nat) :
    execDiv s1 s2 s3 s ≠ .fault (.truncatedInstruction a) :=
  withReg_ne_truncated fun _ => withReg_ne_truncated fun _ => withReg_ne_truncated fun _ => by
    split_ifs <;> nofun

/-- No instruction that was fetched whole raises the truncation fault: it is the fetch's own (R95). -/
theorem exec_ne_truncated (i : Instr) (s : State) (a : Nat) : exec i s ≠ .fault (.truncatedInstruction a) := by
  cases i with
  | load => exact withReg_ne_truncated fun _ => nofun
  | add | sub | mul => exact arith_ne_truncated _ _ _ _ _ _
  | div => exact execDiv_ne_truncated _ _ _ _ _
  | jmp => exact withReg_ne_truncated fun _ => absoluteJump_ne_truncated _ _ _
  | jmpf | jmpb => exact withReg_ne_truncated fun _ => relativeJump_ne_truncated _ _ _
  | eq | neq | lt | gt | ltq | gtq => exact compareWith_ne_truncated _ _ _ _ _
  | jeq | jneq => exact condJump_ne_truncated _ _ _ _
  | hlt | illegal => nofun

theorem fetch_truncated_of_step {s : State} {a : Nat} (h : step s = .fault (.truncatedInstruction a)) :
    fetch s = .error .truncated := by
  rcases step_cases s with ⟨i, -, e⟩ | ⟨-, e⟩ | ⟨hfetch, -⟩
  · exact absurd (e ▸ h) (exec_ne_truncated i s a)
  · rw [e] at h
    cases h
  · exact hfetch

theorem fetch_eq_error {s : State} {e : DecodeError} :
    fetch s = .error e ↔ decode s.cfg.opcodeMap (fetchBytes s) = .error e := by
  unfold fetch
  cases decode s.cfg.opcodeMap (fetchBytes s) <;> simp

/-- The decoder truncates a four-byte opcode alone. -/
theorem decode_truncated {m : OpcodeMap} {bs : List Byte} (h : decode m bs = .error .truncated) :
    ∃ op rest k, bs = op :: rest ∧ decodeOpcode m op = some k ∧ k ≠ .hlt := by
  rcases decode_cases m bs with ⟨-, e⟩ | ⟨op, rest, hbs, hcase⟩
  · rw [e] at h
    cases h
  · rcases hcase with ⟨-, e⟩ | ⟨-, e⟩ | ⟨k, hop, hk, -, e⟩ | ⟨k, b1, b2, b3, rest', -, -, -, e⟩ <;>
      rw [e] at h <;> cases h
    exact ⟨op, rest, k, hbs, hop, hk⟩

/-! ## Completed instructions -/

/-- A four-byte opcode with its three operand bytes decodes to the opcode's instruction (R62, R63). -/
theorem decode_four_bytes {m : OpcodeMap} {op : Byte} {k : Opcode} (hop : decodeOpcode m op = some k) (hk : k ≠ .hlt)
    (b1 b2 b3 : Byte) (rest : List Byte) :
    decode m (op :: b1 :: b2 :: b3 :: rest) = .ok (instrOf k b1 b2 b3, rest) := by
  simp only [decode, hop]
  cases k with
  | hlt => exact absurd rfl hk
  | _ => rfl

theorem instrOf_bytes {k : Opcode} (hk : k ≠ .hlt) (m : OpcodeMap) (b1 b2 b3 : Byte) :
    (instrOf k b1 b2 b3).bytes m = [encodeOpcode m k, b1, b2, b3] := by
  cases k with
  | hlt => exact absurd rfl hk
  | load =>
    change [_, b1, (immOfBytes b2 b3).extractLsb' 8 8, (immOfBytes b2 b3).extractLsb' 0 8] = _
    rw [immOfBytes_hi, immOfBytes_lo]
  | _ => rfl

theorem opcodeMap_wf_of_wf {c : Config} (h : c.wf = true) : OpcodeMap.wf c.opcodeMap = true := by
  simp only [Config.wf, Bool.and_eq_true] at h
  exact h.1

theorem opcodeMap_nodup_of_wf {m : OpcodeMap} (h : OpcodeMap.wf m = true) : m.Nodup := by
  simp only [OpcodeMap.wf, Bool.and_eq_true, decide_eq_true_eq] at h
  obtain ⟨⟨⟨⟨⟨-, hnodup⟩, -⟩, -⟩, -⟩, -⟩ := h
  exact hnodup

/-- Encoding reverses decoding, since no opcode has two byte values (R65). -/
theorem encodeOpcode_of_decodeOpcode {m : OpcodeMap} (hm : OpcodeMap.wf m = true) {b : Byte} {k : Opcode}
    (h : decodeOpcode m b = some k) : encodeOpcode m k = b := by
  obtain ⟨hlt, rfl⟩ := List.getElem?_eq_some_iff.1 h
  rw [encodeOpcode, (opcodeMap_nodup_of_wf hm).idxOf_getElem, BitVec.ofNat_toNat, BitVec.setWidth_eq]

/-- Settles O56: the truncated fetch found a four-byte opcode, and the fetch after the append finds it again with three bytes
after it. -/
theorem appendingCompletesTruncatedInstruction : Obligations.AppendingCompletesTruncatedInstruction := by
  intro s t bs hs hstep happend hfour
  obtain ⟨op, rest, k, hbytes, hop, hk⟩ := decode_truncated (fetch_eq_error.1 (fetch_truncated_of_step hstep))
  have hin : s.pc < s.len := by
    have hlen : (fetchBytes s).length = min 4 (s.len - s.pc) := s.bytesFrom_length 4 s.pc
    rw [hbytes, List.length_cons] at hlen
    omega
  have happ : Appended bs s t := appendBytes_appended hs.prog_wf happend
  have hfetched : fetchBytes t = op :: (rest ++ bs).take 3 := by
    rw [happ.fetchBytes hin.le, hbytes]
    rfl
  obtain ⟨b1, b2, b3, htail⟩ : ∃ b1 b2 b3, (rest ++ bs).take 3 = [b1, b2, b3] := by
    have hlen : (fetchBytes t).length = min 4 (t.len - t.pc) := t.bytesFrom_length 4 t.pc
    rw [hfetched, List.length_cons, happ.len, happ.pc] at hlen
    exact List.length_eq_three.1 (by omega)
  have hfetch : fetch t = .ok (instrOf k b1 b2 b3) := by
    refine fetch_eq_ok.2 ⟨[], ?_⟩
    rw [hfetched, htail, happ.cfg]
    exact decode_four_bytes hop hk b1 b2 b3 []
  refine ⟨instrOf k b1 b2 b3, hfetch, ?_, ?_⟩
  · rw [step, hfetch]
  · calc (instrOf k b1 b2 b3).bytes s.cfg.opcodeMap
      _ = [encodeOpcode s.cfg.opcodeMap k, b1, b2, b3] := instrOf_bytes hk _ b1 b2 b3
      _ = op :: (rest ++ bs).take 3 := by
        rw [encodeOpcode_of_decodeOpcode (opcodeMap_wf_of_wf hs.cfg_wf) hop, htail]
      _ = (fetchBytes s ++ bs).take 4 := by rw [hbytes]; rfl

end Sys2Proof.Machine

/-!
The instruction encoding (spec/30_encoding.md): the opcode map is a bijection (R65), the decoder and the encoder are inverse to
each other (R61-R63, R65), an instruction's length follows from its opcode byte (R69), and what the encoder makes of an
assembled line (R72-R75, R78).
-/

namespace Sys2Proof

open Machine

/-! ## The opcode map -/

theorem Opcode.mem_all (k : Opcode) : k ∈ Opcode.all := by
  cases k <;> decide

/-- A well-formed map lists every opcode, each at one of the byte values 0 to 16. -/
theorem OpcodeMap.length_and_mem_of_wf {m : OpcodeMap} (hm : OpcodeMap.wf m = true) :
    m.length = 17 ∧ ∀ k : Opcode, k ∈ m := by
  simp only [OpcodeMap.wf, Bool.and_eq_true, beq_iff_eq, List.all_eq_true, List.contains_iff_mem] at hm
  obtain ⟨⟨⟨⟨⟨hlen, -⟩, hall⟩, -⟩, -⟩, -⟩ := hm
  exact ⟨hlen, fun k => hall k k.mem_all⟩

/-- The bytes that decode to an opcode are those the map lists: the values 0 to 16 (R65). -/
theorem decodeOpcode_isSome {m : OpcodeMap} (hm : OpcodeMap.wf m = true) (b : Byte) :
    (decodeOpcode m b).isSome = true ↔ b.toNat ≤ 16 := by
  have hlen := (OpcodeMap.length_and_mem_of_wf hm).1
  simp only [decodeOpcode, isSome_getElem?, hlen]
  omega

theorem decodeOpcode_eq_none {m : OpcodeMap} (hm : OpcodeMap.wf m = true) (b : Byte) :
    decodeOpcode m b = none ↔ 17 ≤ b.toNat := by
  rw [← Option.not_isSome_iff_eq_none, decodeOpcode_isSome hm]
  omega

/-- Decoding reverses encoding, since every opcode has a byte value (R65). -/
theorem decodeOpcode_encodeOpcode {m : OpcodeMap} (hm : OpcodeMap.wf m = true) (k : Opcode) :
    decodeOpcode m (encodeOpcode m k) = some k := by
  obtain ⟨hlen, hmem⟩ := OpcodeMap.length_and_mem_of_wf hm
  have hlt : m.idxOf k < m.length := List.idxOf_lt_length_of_mem (hmem k)
  have hbyte : (encodeOpcode m k).toNat = m.idxOf k := by
    rw [encodeOpcode, BitVec.toNat_ofNat]
    exact Nat.mod_eq_of_lt (by omega)
  rw [decodeOpcode, hbyte, List.getElem?_eq_getElem hlt, List.getElem_idxOf hlt]

/-- Settles O3: the map lists each opcode once, in 17 places. -/
theorem opcodeMapIsBijection : Obligations.OpcodeMapIsBijection := fun _ hm =>
  ⟨decodeOpcode_encodeOpcode hm, fun _ _ => encodeOpcode_of_decodeOpcode hm, decodeOpcode_isSome hm⟩

/-- Settles O4: the 17 listed bytes by evaluation, the others because the default map is well-formed. -/
theorem defaultOpcodeBytes : Obligations.DefaultOpcodeBytes := by
  have hwf : OpcodeMap.wf OpcodeMap.default = true := by decide
  exact ⟨hwf, by decide, fun b => (decodeOpcode_eq_none hwf b).2⟩

/-! ## Instructions, their opcodes and their bytes -/

/-- An instruction is determined by its opcode and three operand bytes, which HLT does not have. -/
theorem Instr.exists_eq_instrOf {i : Instr} {k : Opcode} (h : i.opcode = some k) :
    ∃ b1 b2 b3, i = instrOf k b1 b2 b3 := by
  cases i with
  | illegal => cases h
  | hlt =>
    cases h
    exact ⟨0, 0, 0, rfl⟩
  | load s1 imm =>
    cases h
    exact ⟨s1, imm.extractLsb' 8 8, imm.extractLsb' 0 8, by rw [instrOf, immOfBytes_extract]⟩
  | _ =>
    cases h
    exact ⟨_, _, _, rfl⟩

theorem Instr.eq_illegal_of_opcode {i : Instr} (h : i.opcode = none) : ∃ op, i = .illegal op := by
  cases i with
  | illegal op => exact ⟨op, rfl⟩
  | _ => cases h

/-- ILLEGAL, HLT, and the instruction of a four-byte opcode and three operand bytes: there is no other instruction. -/
theorem Instr.cases_form (i : Instr) :
    (∃ op, i = .illegal op) ∨ i = .hlt ∨ ∃ k b1 b2 b3, k ≠ .hlt ∧ i = instrOf k b1 b2 b3 := by
  cases hop : i.opcode with
  | none => exact .inl (eq_illegal_of_opcode hop)
  | some k =>
    obtain ⟨b1, b2, b3, rfl⟩ := exists_eq_instrOf hop
    by_cases hk : k = .hlt
    · exact .inr (.inl (hk ▸ rfl))
    · exact .inr (.inr ⟨k, b1, b2, b3, hk, rfl⟩)

@[simp] theorem instrOf_opcode (k : Opcode) (b1 b2 b3 : Byte) : (instrOf k b1 b2 b3).opcode = some k := by
  cases k <;> rfl

/-- An instruction with an opcode is well-formed: only ILLEGAL can carry a byte that it must not (R71). -/
theorem Instr.wf_of_opcode {i : Instr} {k : Opcode} (h : i.opcode = some k) : i.wf = true := by
  cases i with
  | illegal => cases h
  | _ => rfl

theorem Instr.length_le (i : Instr) : i.length ≤ 4 := by
  unfold Instr.length
  cases i.opcode with
  | none => decide
  | some k => cases k <;> decide

theorem encode_eq_some {m : OpcodeMap} {i : Instr} {bs : List Byte} :
    encode m i = some bs ↔ ∃ k, i.opcode = some k ∧ bs = encodeOpcode m k :: i.operandBytes := by
  unfold encode
  cases i.opcode <;> simp [eq_comm]

/-- What the encoder emits for an instruction is the instruction's bytes. -/
theorem Instr.bytes_of_encode {m : OpcodeMap} {i : Instr} {bs : List Byte} (h : encode m i = some bs) : i.bytes m = bs := by
  cases i with
  | illegal => cases h
  | _ => exact Option.some.inj h

/-! ## Decoding and encoding are inverse -/

/-- Whenever the decoder answers an instruction, it has read an unmapped byte, HLT's byte, or a four-byte opcode's and three
more. -/
theorem decode_ok_cases {m : OpcodeMap} {bs rest : List Byte} {i : Instr} (h : decode m bs = .ok (i, rest)) :
    (∃ op, bs = op :: rest ∧ decodeOpcode m op = none ∧ i = .illegal op) ∨
    (∃ op, bs = op :: rest ∧ decodeOpcode m op = some .hlt ∧ i = .hlt) ∨
    ∃ op k b1 b2 b3, bs = op :: b1 :: b2 :: b3 :: rest ∧ decodeOpcode m op = some k ∧ k ≠ .hlt ∧
      i = instrOf k b1 b2 b3 := by
  rcases decode_cases m bs with ⟨-, e⟩ | ⟨op, tail, rfl, hcase⟩
  · rw [e] at h
    cases h
  · rcases hcase with ⟨hop, e⟩ | ⟨hop, e⟩ | ⟨k, -, -, -, e⟩ | ⟨k, b1, b2, b3, tail', hop, hk, rfl, e⟩ <;>
      rw [e] at h <;> cases h
    · exact .inl ⟨op, rfl, hop, rfl⟩
    · exact .inr (.inl ⟨op, rfl, hop, rfl⟩)
    · exact .inr (.inr ⟨op, k, b1, b2, b3, rfl, hop, hk, rfl⟩)

theorem decode_illegal {m : OpcodeMap} {op : Byte} (hop : decodeOpcode m op = none) (rest : List Byte) :
    decode m (op :: rest) = .ok (.illegal op, rest) := by
  simp only [decode, hop]

theorem decode_hlt {m : OpcodeMap} {op : Byte} (hop : decodeOpcode m op = some .hlt) (rest : List Byte) :
    decode m (op :: rest) = .ok (.hlt, rest) := by
  simp only [decode, hop]
  rfl

/-- The bytes of a well-formed instruction decode to it, whatever follows them. -/
theorem decode_bytes_append {m : OpcodeMap} {i : Instr} (hm : OpcodeMap.wf m = true) (hi : i.wf = true)
    (rest : List Byte) : decode m (i.bytes m ++ rest) = .ok (i, rest) := by
  rcases i.cases_form with ⟨op, rfl⟩ | rfl | ⟨k, b1, b2, b3, hk, rfl⟩
  · exact decode_illegal ((decodeOpcode_eq_none hm op).2 (of_decide_eq_true hi)) rest
  · exact decode_hlt (decodeOpcode_encodeOpcode hm .hlt) rest
  · rw [instrOf_bytes hk]
    exact decode_four_bytes (decodeOpcode_encodeOpcode hm k) hk b1 b2 b3 rest

/-- Settles O1, by the three forms of an instruction: what the encoder emits is the instruction's bytes. -/
theorem decodeInvertsEncode : Obligations.DecodeInvertsEncode := by
  intro m i rest hm hi
  refine ⟨decode_bytes_append hm hi rest, fun bs hbs => ?_⟩
  rw [← Instr.bytes_of_encode hbs]
  exact decode_bytes_append hm hi rest

/-- Settles O2, by what the decoder has read: each opcode byte is the one that its opcode encodes to. -/
theorem encodeInvertsDecode : Obligations.EncodeInvertsDecode := by
  intro m bs rest i hm h
  rcases decode_ok_cases h with ⟨op, rfl, hop, rfl⟩ | ⟨op, rfl, hop, rfl⟩ | ⟨op, k, b1, b2, b3, rfl, hop, hk, rfl⟩
  · exact ⟨decide_eq_true ((decodeOpcode_eq_none hm op).1 hop), rfl⟩
  · refine ⟨rfl, ?_⟩
    rw [← encodeOpcode_of_decodeOpcode hm hop]
    rfl
  · refine ⟨Instr.wf_of_opcode (instrOf_opcode k b1 b2 b3), ?_⟩
    rw [instrOf_bytes hk, encodeOpcode_of_decodeOpcode hm hop]
    rfl

/-- Settles O5, by what the decoder has read. -/
theorem lengthFollowsFromOpcodeByte : Obligations.LengthFollowsFromOpcodeByte := by
  intro m op bs rest i h
  rcases decode_ok_cases h with ⟨op, e, hop, -⟩ | ⟨op, e, hop, -⟩ | ⟨op, k, b1, b2, b3, e, hop, hk, -⟩ <;> cases e <;>
    rw [hop]
  · rfl
  · rfl
  · cases k with
    | hlt => exact absurd rfl hk
    | _ => rfl

/-- Settles O6, by evaluating the decoder on each word. -/
theorem literalWordsDecode : Obligations.LiteralWordsDecode :=
  ⟨by decide, by decide, by decide, by decide, by decide, by decide, by decide⟩

/-! ## Assembled lines -/

theorem regByte_eq_ok {n : Nat} {b : Byte} : regByte n = .ok b ↔ n ≤ 255 ∧ b = BitVec.ofNat 8 n := by
  unfold regByte
  split_ifs with h <;> simp [h, eq_comm]

theorem Opcode.arity_eq_arity0 {k : Opcode} : k.arity = .arity0 ↔ k = .hlt := by
  cases k <;> decide

theorem Opcode.arity_eq_arity2 {k : Opcode} : k.arity = .arity2 ↔ k = .load := by
  cases k <;> decide

/-- Two steps of the encoder in a row succeed when both do. -/
theorem except_bind_eq_ok {α β : Type} {x : Except EncodeError α} {f : α → Except EncodeError β} {b : β} :
    (x >>= f) = .ok b ↔ ∃ a, x = .ok a ∧ f a = .ok b := by
  cases x <;> simp [bind, Except.bind]

/-- The lines whose operands match the class of their opcode: HLT, LOAD, and the arity-3 opcodes (R72). -/
theorem AsmLine.wf_iff {l : AsmLine} :
    l.wf = true ↔ l = ⟨some .hlt, []⟩ ∨ (∃ d v, l = ⟨some .load, [.reg d, .imm v]⟩) ∨
      ∃ k a b c, k.arity = .arity3 ∧ l = ⟨some k, [.reg a, .reg b, .reg c]⟩ := by
  constructor
  · intro h
    obtain ⟨_ | k, ops⟩ := l
    · cases h
    · simp only [AsmLine.wf] at h
      split at h
      next hk => exact .inl (by rw [Opcode.arity_eq_arity0.1 hk])
      next d v hk => exact .inr (.inl ⟨d, v, by rw [Opcode.arity_eq_arity2.1 hk]⟩)
      next a b c hk => exact .inr (.inr ⟨k, a, b, c, hk, rfl⟩)
      next => cases h
  · rintro (rfl | ⟨d, v, rfl⟩ | ⟨k, a, b, c, hk, rfl⟩)
    · rfl
    · rfl
    · simp only [AsmLine.wf, hk]

/-- Operands that do not match the class stand for no instruction (R75). -/
theorem AsmLine.wf_of_instr {l : AsmLine} {i : Instr} (h : l.instr = .ok i) : l.wf = true := by
  obtain ⟨_ | k, ops⟩ := l
  · cases h
  · simp only [AsmLine.instr] at h
    split_ifs at h
    split at h
    next hk _ => simp only [AsmLine.wf, hk]
    next hk _ => simp only [AsmLine.wf, hk]
    next hk _ => simp only [AsmLine.wf, hk]
    next => cases h

theorem AsmLine.instr_load_eq_ok {d : Nat} {v : Word} {i : Instr} :
    AsmLine.instr ⟨some .load, [.reg d, .imm v]⟩ = .ok i ↔ d ≤ 255 ∧ i = .load (BitVec.ofNat 8 d) (truncImm v) := by
  change (regByte d >>= fun b => .ok (.load b (truncImm v))) = .ok i ↔ _
  simp [except_bind_eq_ok, regByte_eq_ok, and_assoc, eq_comm (a := i)]

theorem AsmLine.instr_slots_eq_ok {k : Opcode} (hk : k.arity = .arity3) {a b c : Nat} {i : Instr} :
    AsmLine.instr ⟨some k, [.reg a, .reg b, .reg c]⟩ = .ok i ↔
      a ≤ 255 ∧ b ≤ 255 ∧ c ≤ 255 ∧ i = instrOf k (BitVec.ofNat 8 a) (BitVec.ofNat 8 b) (BitVec.ofNat 8 c) := by
  simp [AsmLine.instr, hk, except_bind_eq_ok, regByte_eq_ok, and_assoc, pure, Except.pure, eq_comm (a := i)]

/-- The lines that stand for an instruction: the operands match the class and every register fits a byte (R74, R75). -/
theorem AsmLine.exists_instr_iff {l : AsmLine} :
    (∃ i, l.instr = .ok i) ↔ l.wf = true ∧ ∀ n, .reg n ∈ l.operands → n ≤ 255 := by
  constructor
  · rintro ⟨i, h⟩
    have hwf := wf_of_instr h
    refine ⟨hwf, ?_⟩
    rcases wf_iff.1 hwf with rfl | ⟨d, v, rfl⟩ | ⟨k, a, b, c, hk, rfl⟩
    · simp
    · simpa using (instr_load_eq_ok.1 h).1
    · obtain ⟨ha, hb, hc, -⟩ := (instr_slots_eq_ok hk).1 h
      simp [ha, hb, hc]
  · rintro ⟨hwf, hreg⟩
    rcases wf_iff.1 hwf with rfl | ⟨d, v, rfl⟩ | ⟨k, a, b, c, hk, rfl⟩
    · exact ⟨.hlt, rfl⟩
    · exact ⟨_, instr_load_eq_ok.2 ⟨hreg d (by simp), rfl⟩⟩
    · exact ⟨_, (instr_slots_eq_ok hk).2 ⟨hreg a (by simp), hreg b (by simp), hreg c (by simp), rfl⟩⟩

/-- A line never stands for ILLEGAL. -/
theorem AsmLine.exists_opcode_of_instr {l : AsmLine} {i : Instr} (h : l.instr = .ok i) : ∃ k, i.opcode = some k := by
  rcases wf_iff.1 (wf_of_instr h) with rfl | ⟨d, v, rfl⟩ | ⟨k, a, b, c, hk, rfl⟩
  · cases h
    exact ⟨.hlt, rfl⟩
  · obtain ⟨-, rfl⟩ := instr_load_eq_ok.1 h
    exact ⟨.load, rfl⟩
  · obtain ⟨-, -, -, rfl⟩ := (instr_slots_eq_ok hk).1 h
    exact ⟨k, instrOf_opcode ..⟩

theorem AsmLine.opcode_ne_none_of_wf {l : AsmLine} (h : l.wf = true) : l.opcode ≠ none := by
  rcases wf_iff.1 h with rfl | ⟨d, v, rfl⟩ | ⟨k, a, b, c, -, rfl⟩ <;> nofun

theorem AsmLine.malformed_not_mem_of_wf {l : AsmLine} (h : l.wf = true) : .malformed ∉ l.operands := by
  rcases wf_iff.1 h with rfl | ⟨d, v, rfl⟩ | ⟨k, a, b, c, -, rfl⟩ <;> simp

theorem assemble_eq_ok {m : OpcodeMap} {l : AsmLine} {bs : List Byte} :
    assemble m l = .ok bs ↔ ∃ i, l.instr = .ok i ∧ encode m i = some bs := by
  unfold assemble
  cases l.instr with
  | error => simp
  | ok i => cases h : encode m i <;> simp [h]

/-- The encoder fails on a line exactly when the line stands for no instruction. -/
theorem assemble_fails_iff {m : OpcodeMap} {l : AsmLine} :
    (∃ e, assemble m l = .error e) ↔ ¬ ∃ i, l.instr = .ok i := by
  constructor
  · rintro ⟨e, he⟩ ⟨i, hi⟩
    obtain ⟨k, hk⟩ := AsmLine.exists_opcode_of_instr hi
    rw [assemble_eq_ok.2 ⟨i, hi, encode_eq_some.2 ⟨k, hk, rfl⟩⟩] at he
    cases he
  · intro h
    cases ha : assemble m l with
    | error e => exact ⟨e, rfl⟩
    | ok bs =>
      obtain ⟨i, hi, -⟩ := assemble_eq_ok.1 ha
      exact absurd ⟨i, hi⟩ h

/-- Settles O7: a line fails when it stands for no instruction, and a line whose operands match its class has an opcode and no
malformed token. -/
theorem encoderFailsExactlyWhen : Obligations.EncoderFailsExactlyWhen := by
  intro m l
  rw [assemble_fails_iff, AsmLine.exists_instr_iff]
  cases hwf : l.wf with
  | false => simp
  | true => simp [AsmLine.opcode_ne_none_of_wf hwf, AsmLine.malformed_not_mem_of_wf hwf]

/-- Truncation keeps the signed value modulo 2^16 (R73). -/
theorem truncImm_eq_ofInt (v : Word) : truncImm v = BitVec.ofInt 16 v.toInt :=
  (BitVec.signExtend_eq_setWidth_of_le v (by decide)).symm

theorem truncImm_toNat (v : Word) : ((truncImm v).toNat : Int) = v.toInt % 65536 := by
  rw [truncImm_eq_ofInt, BitVec.toNat_ofInt]
  omega

/-- Settles O8: the two immediate bytes are the halves of the truncated value. -/
theorem encoderTruncatesImmediate : Obligations.EncoderTruncatesImmediate := by
  intro m d v hd
  refine ⟨(truncImm v).extractLsb' 8 8, (truncImm v).extractLsb' 0 8, ?_, ?_⟩
  · exact assemble_eq_ok.2 ⟨_, AsmLine.instr_load_eq_ok.2 ⟨hd, rfl⟩, rfl⟩
  · rw [← immOfBytes_toNat, immOfBytes_extract, truncImm_toNat]

/-! ## Execution -/

namespace Machine

/-- Settles O16: the meaning of each of these instructions takes its used slots alone. -/
theorem unusedSlotsAreIgnored : Obligations.UnusedSlotsAreIgnored := fun _ _ _ _ _ _ _ =>
  ⟨rfl, rfl, rfl, rfl, rfl, rfl, rfl, rfl, rfl, rfl, rfl⟩

/-- The fetch finds an encoded instruction that is appended where the engine has stopped at the end of its buffer. -/
theorem fetch_of_appended {s t : State} {i : Instr} {bs : List Byte} (hwf : OpcodeMap.wf s.cfg.opcodeMap = true)
    (hpc : s.pc = s.len) (henc : encode s.cfg.opcodeMap i = some bs) (happ : Appended bs s t) : fetch t = .ok i := by
  obtain ⟨k, hk, -⟩ := encode_eq_some.1 henc
  have hdec : decode s.cfg.opcodeMap bs = .ok (i, []) := by
    have h := decode_bytes_append hwf (Instr.wf_of_opcode hk) []
    rwa [List.append_nil, Instr.bytes_of_encode henc] at h
  have hfour : bs.length ≤ 4 := by
    rw [decode_length hdec]
    exact i.length_le
  have hbefore : fetchBytes s = [] := by
    rw [← List.length_eq_zero_iff, fetchBytes, State.bytesFrom_length, hpc, Nat.sub_self, Nat.min_zero]
  refine fetch_eq_ok.2 ⟨[], ?_⟩
  rwa [happ.fetchBytes hpc.le, hbefore, List.nil_append, List.take_of_length_le hfour, happ.cfg]

theorem step_of_fetch {s : State} {i : Instr} (h : fetch s = .ok i) : step s = exec i s := by
  rw [step, h]

theorem exec_load_of_eq {s1 : Byte} {d : Fin 32} (h : s1.toNat = d) (imm : Half) (s : State) :
    exec (.load s1 imm) s = .next { s.setReg d (widenImm s.cfg.loadImmExt imm) with
      pc := s.pc + 4, report := some .continued } :=
  withReg_of_eq h s _

/-- An immediate below 0x8000 widens to the same word under both settings of LOAD_IMM_EXT (R110). -/
theorem widenImm_hundred (e : ImmExt) : widenImm e 100 = 100 := by
  cases e <;> decide

/-- Settles O9: the appended bytes are those of the line's instruction, and they are all the fetch finds. -/
theorem assembledLineRunsInOneStep : Obligations.AssembledLineRunsInOneStep := by
  intro s t l bs hs hpc hasm happend
  obtain ⟨i, hi, henc⟩ := assemble_eq_ok.1 hasm
  have happ : Appended bs s t := appendBytes_appended hs.prog_wf happend
  have hfetch : fetch t = .ok i := fetch_of_appended (opcodeMap_wf_of_wf hs.cfg_wf) hpc henc happ
  have hload : ∀ d v, l = ⟨some .load, [.reg d, .imm v]⟩ → i = .load (BitVec.ofNat 8 d) (BitVec.ofInt 16 v.toInt) := by
    rintro d v rfl
    obtain ⟨-, rfl⟩ := AsmLine.instr_load_eq_ok.1 hi
    rw [truncImm_eq_ofInt]
  refine ⟨i, hi, hfetch, step_of_fetch hfetch, hload, fun hl => ?_⟩
  have hi100 : i = .load 0 100 := hload 0 100 hl
  rw [step_of_fetch hfetch, hi100]
  refine ⟨_, exec_load_of_eq (s1 := 0) (d := 0) (by decide) 100 t, ?_⟩
  calc (t.setReg 0 (widenImm t.cfg.loadImmExt 100)).reg 0
    _ = widenImm t.cfg.loadImmExt 100 := State.reg_setReg_self t 0 _
    _ = 100 := widenImm_hundred _

end Machine

end Sys2Proof

/-!
The step and the host's operations (spec/40_engine_cycle.md): what the fetch finds (R92-R95), the range check of used slots
(R96), how an instruction ends (R91), the agreement with the pseudocode (R97), and runs, faults and presets as the host sees
them (R99-R103).
-/

namespace Sys2Proof.Machine

/-! ## The fetch -/

theorem fetch_of_end {s : State} (h : s.len ≤ s.pc) : fetch s = .error .noByte := by
  refine fetch_eq_error.2 ?_
  rw [fetchBytes, State.bytesFrom, State.progByte_of_le h]
  rfl

theorem fetchBytes_of_progByte {s : State} {op : Byte} (h : s.progByte s.pc = some op) :
    fetchBytes s = op :: s.bytesFrom 3 (s.pc + 1) := by
  rw [fetchBytes, State.bytesFrom, h]

theorem fetch_of_unmapped {s : State} {op : Byte} (h : s.progByte s.pc = some op)
    (hop : decodeOpcode s.cfg.opcodeMap op = none) : fetch s = .ok (.illegal op) := by
  refine fetch_eq_ok.2 ⟨s.bytesFrom 3 (s.pc + 1), ?_⟩
  rw [fetchBytes_of_progByte h]
  exact decode_illegal hop _

theorem fetch_of_hlt {s : State} {op : Byte} (h : s.progByte s.pc = some op)
    (hop : decodeOpcode s.cfg.opcodeMap op = some .hlt) : fetch s = .ok .hlt := by
  refine fetch_eq_ok.2 ⟨s.bytesFrom 3 (s.pc + 1), ?_⟩
  rw [fetchBytes_of_progByte h]
  exact decode_hlt hop _

/-- A four-byte opcode with fewer than three operand bytes after it does not decode (R95). -/
theorem decode_short {m : OpcodeMap} {op : Byte} {k : Opcode} {rest : List Byte} (hop : decodeOpcode m op = some k)
    (hk : k ≠ .hlt) (hrest : rest.length < 3) : decode m (op :: rest) = .error .truncated := by
  rcases decode_cases m (op :: rest) with ⟨h, -⟩ | ⟨op', rest', hbs, hcase⟩
  · cases h
  · cases hbs
    rcases hcase with ⟨hop', -⟩ | ⟨hop', -⟩ | ⟨-, -, -, -, e⟩ | ⟨-, b1, b2, b3, tail, -, -, rfl, -⟩
    · simp [hop] at hop'
    · exact absurd (Option.some.inj (hop.symm.trans hop')) hk
    · exact e
    · simp only [List.length_cons] at hrest
      omega

theorem fetch_of_truncated {s : State} {op : Byte} {k : Opcode} (h : s.progByte s.pc = some op)
    (hop : decodeOpcode s.cfg.opcodeMap op = some k) (hk : k ≠ .hlt) (hlen : s.len - s.pc < 4) :
    fetch s = .error .truncated := by
  have hin : s.pc < s.len := (s.progByte_isSome s.pc).1 (h ▸ rfl)
  refine fetch_eq_error.2 ?_
  rw [fetchBytes_of_progByte h]
  refine decode_short hop hk ?_
  rw [State.bytesFrom_length]
  omega

theorem fetch_of_four_bytes {s : State} {op b1 b2 b3 : Byte} {k : Opcode} (h : s.progByte s.pc = some op)
    (hop : decodeOpcode s.cfg.opcodeMap op = some k) (hk : k ≠ .hlt) (h1 : s.progByte (s.pc + 1) = some b1)
    (h2 : s.progByte (s.pc + 2) = some b2) (h3 : s.progByte (s.pc + 3) = some b3) :
    fetch s = .ok (instrOf k b1 b2 b3) := by
  have hrest : s.bytesFrom 3 (s.pc + 1) = [b1, b2, b3] := by simp [State.bytesFrom, h1, h2, h3]
  refine fetch_eq_ok.2 ⟨[], ?_⟩
  rw [fetchBytes_of_progByte h, hrest]
  exact decode_four_bytes hop hk b1 b2 b3 []

/-- The fetch finds the instruction whose bytes stand at the program counter, at any offset (R93, R41). -/
theorem fetch_of_holdsAt {s : State} {i : Instr} (hs : s.cfg.wf = true) (hi : i.wf = true) (h : s.HoldsAt s.pc i) :
    fetch s = .ok i := by
  have hdec := decode_bytes_append (opcodeMap_wf_of_wf hs) hi
  have hfour : (i.bytes s.cfg.opcodeMap).length ≤ 4 := by
    have hlen := decode_length (hdec [])
    have hi4 := i.length_le
    simp only [List.append_nil, List.length_nil] at hlen
    omega
  have hprefix : i.bytes s.cfg.opcodeMap <+: fetchBytes s := by
    refine List.prefix_iff_getElem?.2 fun k hk => ?_
    rw [fetchBytes, State.bytesFrom_getElem, if_pos (by omega)]
    exact h k _ (List.getElem?_eq_getElem hk)
  obtain ⟨rest, hrest⟩ := hprefix
  exact fetch_eq_ok.2 ⟨rest, hrest ▸ hdec rest⟩

/-! ## The step by what the fetch finds -/

theorem step_of_end {s : State} (h : s.len ≤ s.pc) :
    step s = .next { s with report := some (.halted .endOfBuffer) } := by
  rw [step, fetch_of_end h]
  rfl

theorem step_of_truncated {s : State} {op : Byte} {k : Opcode} (h : s.progByte s.pc = some op)
    (hop : decodeOpcode s.cfg.opcodeMap op = some k) (hk : k ≠ .hlt) (hlen : s.len - s.pc < 4) :
    step s = .fault (.truncatedInstruction s.pc) := by
  rw [step, fetch_of_truncated h hop hk hlen]
  rfl

/-- Settles O10: the fetch is the decoder's answer. -/
theorem stepRunsDecodedInstruction : Obligations.StepRunsDecodedInstruction := fun _ _ rest h =>
  step_of_fetch (fetch_eq_ok.2 ⟨rest, h⟩)

/-- Settles O11: the instruction's bytes are the first of those fetched. -/
theorem stepRunsInstructionAtPc : Obligations.StepRunsInstructionAtPc := fun _ _ hs hi h =>
  step_of_fetch (fetch_of_holdsAt hs hi h)

/-- Settles O13: the fetch finds no byte. -/
theorem stepAtEndOfBufferHalts : Obligations.StepAtEndOfBufferHalts := fun _ => step_of_end

/-- Settles O14: the fetch finds the opcode and too few operand bytes. -/
theorem truncatedInstructionFaults : Obligations.TruncatedInstructionFaults := fun _ _ _ => step_of_truncated

/-- Settles O48: by the decoder, by the meaning of ILLEGAL, and by the fetch. -/
theorem illegalHaltsPastItsByte : Obligations.IllegalHaltsPastItsByte := by
  refine ⟨fun m op rest hm hop => decode_illegal ((decodeOpcode_eq_none hm op).2 hop) rest, fun s op => rfl, ?_⟩
  intro s op hs hop hbyte
  have hunmapped := (decodeOpcode_eq_none (opcodeMap_wf_of_wf hs) op).2 hop
  exact hostStep_eq_some.2 (.inl ⟨step_of_fetch (fetch_of_unmapped hbyte hunmapped), rfl⟩)

/-! ## The range check of used slots -/

/-- The outcome `o` is RegisterOutOfRange exactly for the first of `slots` with a value of 32 or more (R96). -/
def RangeChecks (slots : List Byte) (s : State) (o : Result) : Prop :=
  ∀ b a, o = .fault (.registerOutOfRange b a) ↔ slots.find? (fun b => decide (32 ≤ b.toNat)) = some b ∧ a = s.pc

theorem rangeChecks_nil {s : State} {o : Result} (h : ∀ b a, o ≠ .fault (.registerOutOfRange b a)) :
    RangeChecks [] s o := fun b a =>
  ⟨fun ho => absurd ho (h b a), fun hb => by cases hb.1⟩

/-- Opening a used slot checks it before the slots that are opened after it. -/
theorem rangeChecks_withReg {b : Byte} {bs : List Byte} {s : State} {k : Fin 32 → Result}
    (hk : ∀ r, RangeChecks bs s (k r)) : RangeChecks (b :: bs) s (withReg b s k) := by
  intro b' a
  rcases withReg_cases b s k with ⟨hge, e⟩ | ⟨r, hr, e⟩ <;> rw [e]
  · rw [List.find?_cons_of_pos (by simpa using hge)]
    simp [eq_comm]
  · rw [List.find?_cons_of_neg (by simp [hr])]
    exact hk r b' a

theorem rangeChecks_absoluteJump (v : Word) (s : State) : RangeChecks [] s (absoluteJump v s) :=
  rangeChecks_nil fun b a => by
    rcases absoluteJump_cases v s with ⟨-, e⟩ | ⟨-, -, e⟩ | ⟨-, -, e⟩ <;> rw [e] <;> nofun

theorem rangeChecks_relativeJump (n : Int) (s : State) : RangeChecks [] s (relativeJump n s) :=
  rangeChecks_nil fun b a => by
    rcases relativeJump_cases n s with ⟨-, e⟩ | ⟨-, -, e⟩ | ⟨-, -, e⟩ <;> rw [e] <;> nofun

/-- Every instruction opens its used slots in order, and checks nothing else (R66, R96). -/
theorem exec_rangeChecks (i : Instr) (s : State) : RangeChecks i.usedSlots s (exec i s) := by
  cases i with
  | load => exact rangeChecks_withReg fun _ => rangeChecks_nil nofun
  | add | sub | mul =>
    exact rangeChecks_withReg fun _ => rangeChecks_withReg fun _ => rangeChecks_withReg fun _ => rangeChecks_nil nofun
  | div =>
    refine rangeChecks_withReg fun _ => rangeChecks_withReg fun _ => rangeChecks_withReg fun _ => rangeChecks_nil ?_
    intro b a
    split_ifs <;> nofun
  | jmp => exact rangeChecks_withReg fun _ => rangeChecks_absoluteJump _ s
  | jmpf | jmpb => exact rangeChecks_withReg fun _ => rangeChecks_relativeJump _ s
  | eq | neq | lt | gt | ltq | gtq =>
    exact rangeChecks_withReg fun _ => rangeChecks_withReg fun _ => rangeChecks_nil nofun
  | jeq | jneq =>
    refine rangeChecks_withReg fun r => ?_
    split_ifs
    · exact rangeChecks_absoluteJump _ s
    · exact rangeChecks_nil nofun
  | hlt | illegal => exact rangeChecks_nil nofun

/-- Settles O15, by the slots each instruction opens. -/
theorem firstBadUsedSlotFaults : Obligations.FirstBadUsedSlotFaults := exec_rangeChecks

/-! ## How a step ends -/

/-- The three ways in which a step from `s` ends (R91, R12): it goes on or halts, and says so, or it faults at the
address of its instruction. It is never refused. -/
def EndsFrom (s : State) : Result → Prop
  | .next t => t.report = some .continued ∨ ∃ reason, t.report = some (.halted reason)
  | .fault f => f.addr = s.pc
  | .refused _ => False

theorem withReg_ends {b : Byte} {s : State} {k : Fin 32 → Result} (hk : ∀ r, EndsFrom s (k r)) :
    EndsFrom s (withReg b s k) := by
  rcases withReg_cases b s k with ⟨-, e⟩ | ⟨r, -, e⟩ <;> rw [e]
  · rfl
  · exact hk r

theorem continueAt_ends (n : Nat) (s t : State) : EndsFrom s (continueAt n t) := .inl rfl

theorem haltAt_ends (reason : HaltReason) (n : Nat) (s t : State) : EndsFrom s (haltAt reason n t) := .inr ⟨reason, rfl⟩

theorem absoluteJump_ends (v : Word) (s : State) : EndsFrom s (absoluteJump v s) := by
  rcases absoluteJump_cases v s with ⟨-, e⟩ | ⟨-, -, e⟩ | ⟨-, -, e⟩ <;> rw [e]
  · rfl
  · rfl
  · exact continueAt_ends _ s s

theorem relativeJump_ends (n : Int) (s : State) : EndsFrom s (relativeJump n s) := by
  rcases relativeJump_cases n s with ⟨-, e⟩ | ⟨-, -, e⟩ | ⟨-, -, e⟩ <;> rw [e]
  · rfl
  · rfl
  · exact continueAt_ends _ s s

theorem exec_ends (i : Instr) (s : State) : EndsFrom s (exec i s) := by
  cases i with
  | load => exact withReg_ends fun _ => continueAt_ends _ _ _
  | add | sub | mul => exact withReg_ends fun _ => withReg_ends fun _ => withReg_ends fun _ => continueAt_ends _ _ _
  | div =>
    refine withReg_ends fun _ => withReg_ends fun _ => withReg_ends fun _ => ?_
    split_ifs
    · rfl
    · exact continueAt_ends _ _ _
  | jmp => exact withReg_ends fun _ => absoluteJump_ends _ s
  | jmpf | jmpb => exact withReg_ends fun _ => relativeJump_ends _ s
  | eq | neq | lt | gt | ltq | gtq => exact withReg_ends fun _ => withReg_ends fun _ => continueAt_ends _ _ _
  | jeq | jneq =>
    refine withReg_ends fun _ => ?_
    split_ifs
    · exact absoluteJump_ends _ s
    · exact continueAt_ends _ _ _
  | hlt | illegal => exact haltAt_ends _ _ _ _

theorem step_ends (s : State) : EndsFrom s (step s) := by
  rcases step_cases s with ⟨i, -, e⟩ | ⟨-, e⟩ | ⟨-, e⟩ <;> rw [e]
  · exact exec_ends i s
  · exact haltAt_ends _ _ _ _
  · rfl

/-- Settles O22: a step ends in one of three ways, and each has its report. -/
theorem everyStepReportsAnOutcome : Obligations.EveryStepReportsAnOutcome := by
  intro s
  have hends := step_ends s
  cases hstep : step s with
  | refused =>
    rw [hstep] at hends
    exact hends.elim
  | fault f => exact ⟨nofun, .faulted f, _, hostStep_eq_some.2 (.inr ⟨f, hstep, rfl, rfl⟩), rfl⟩
  | next t =>
    obtain ⟨r, hr⟩ : ∃ r, t.report = some r := by
      rw [hstep] at hends
      rcases hends with h | ⟨reason, h⟩ <;> exact ⟨_, h⟩
    exact ⟨nofun, r, t, hostStep_eq_some.2 (.inl ⟨hstep, hr⟩), hr⟩

/-- The host is told of a fault exactly when the step faults, and finds the state as it was but for the report (R183). -/
theorem hostStep_eq_faulted {s t : State} {f : Fault} :
    hostStep s = some (.faulted f, t) ↔ step s = .fault f ∧ t = { s with report := some (.faulted f) } := by
  rw [hostStep_eq_some]
  constructor
  · rintro (⟨hstep, hreport⟩ | ⟨f', hstep, hf, rfl⟩)
    · have hends : EndsFrom s (.next t) := hstep ▸ step_ends s
      rcases hends with h | ⟨reason, h⟩ <;> rw [h] at hreport <;> cases hreport
    · cases hf
      exact ⟨hstep, rfl⟩
  · rintro ⟨hstep, rfl⟩
    exact .inr ⟨f, hstep, rfl, rfl⟩

/-- A fault names the address of the faulting instruction (R180). -/
theorem addr_of_step_eq_fault {s : State} {f : Fault} (h : step s = .fault f) : f.addr = s.pc := by
  have hends := step_ends s
  rwa [h] at hends

/-! ## Runs -/

/-- A run ends with its first step, or goes on where that step says `Continue`. -/
theorem run_succ_eq_some {n : Nat} {s t : State} {r : Report} :
    run (n + 1) s = some (r, t) ↔
      (hostStep s = some (r, t) ∧ r.stops = true) ∨ ∃ u, hostStep s = some (.continued, u) ∧ run n u = some (r, t) := by
  rw [run]
  cases hostStep s with
  | none => simp
  | some p =>
    obtain ⟨r', u⟩ := p
    cases r' <;> simp <;> rintro rfl <;> simp [Report.stops]

/-- What holds of a state whose step ends the run so, and passes back over every step that goes on, holds of the state in
which the run began. -/
theorem RunEnds.induction {r : Report} {t : State} {motive : State → Prop}
    (stop : ∀ s, hostStep s = some (r, t) → r.stops = true → motive s)
    (goesOn : ∀ s u, hostStep s = some (.continued, u) → motive u → motive s)
    {s : State} (h : RunEnds s r t) : motive s := by
  obtain ⟨fuel, h⟩ := h
  induction fuel generalizing s with
  | zero => cases h
  | succ n ih =>
    rcases run_succ_eq_some.1 h with ⟨hstep, hstops⟩ | ⟨u, hstep, hrun⟩
    · exact stop s hstep hstops
    · exact goesOn s u hstep (ih hrun)

theorem runEnds_iff {s t : State} {r : Report} :
    RunEnds s r t ↔
      (hostStep s = some (r, t) ∧ r.stops = true) ∨ ∃ u, hostStep s = some (.continued, u) ∧ RunEnds u r t := by
  constructor
  · rintro ⟨fuel, h⟩
    cases fuel with
    | zero => cases h
    | succ n => exact (run_succ_eq_some.1 h).imp_right fun ⟨u, hstep, hrun⟩ => ⟨u, hstep, n, hrun⟩
  · rintro (h | ⟨u, hstep, n, hrun⟩)
    · exact ⟨1, run_succ_eq_some.2 (.inl h)⟩
    · exact ⟨n + 1, run_succ_eq_some.2 (.inr ⟨u, hstep, hrun⟩)⟩

/-- Settles O50, by induction over the first run: the second takes the same steps. -/
theorem runEndsInOneWay : Obligations.RunEndsInOneWay := by
  intro s t t' r r' h
  refine RunEnds.induction (motive := fun s => RunEnds s r' t' → r = r' ∧ t = t' ∧ r.stops = true) ?_ ?_ h
  · intro s hstep hstops h'
    rcases runEnds_iff.1 h' with ⟨hstep', -⟩ | ⟨u, hstep', -⟩ <;> cases hstep.symm.trans hstep'
    · exact ⟨rfl, rfl, hstops⟩
    · cases hstops
  · intro s u hstep ih h'
    rcases runEnds_iff.1 h' with ⟨hstep', hstops⟩ | ⟨u', hstep', hrun⟩ <;> cases hstep.symm.trans hstep'
    · cases hstops
    · exact ih hrun

/-- A state that the host's step goes on to from itself is on no run that ends. -/
theorem not_runEnds_of_hostStep_self {s : State} (hloop : hostStep s = some (.continued, s)) (r : Report) (t : State) :
    ¬ RunEnds s r t := by
  intro h
  refine RunEnds.induction (motive := fun u => u ≠ s) ?_ ?_ h rfl
  · rintro _ hstep hstops rfl
    cases hloop.symm.trans hstep
    cases hstops
  · rintro _ u hstep hu rfl
    cases hloop.symm.trans hstep
    exact hu rfl

/-- JMP to its own address goes on, and changes nothing but the report (R140). -/
theorem hostStep_selfJump {s : State} {r : Fin 32} {s1 s2 s3 : Byte} (hfetch : fetch s = .ok (.jmp s1 s2 s3))
    (hr : s1.toNat = r) (hself : (s.reg r).toInt = s.pc) (hpc : s.pc < 2 ^ s.cfg.pcBits) :
    hostStep s = some (.continued, { s with report := some .continued }) := by
  have hjump : step s = absoluteJump (s.reg r) s := by
    rw [step_of_fetch hfetch]
    exact withReg_of_eq hr s _
  have hnext : absoluteJump (s.reg r) s = .next { s with report := some .continued } := by
    rcases absoluteJump_cases (s.reg r) s with ⟨h, -⟩ | ⟨-, h, -⟩ | ⟨-, -, e⟩
    · omega
    · omega
    · rw [e, hself]
      rfl
  exact hostStep_eq_some.2 (.inl ⟨hjump.trans hnext, rfl⟩)

/-- Settles O51: after one step the jump leads from the state to the state itself. -/
theorem selfJumpNeverEnds : Obligations.SelfJumpNeverEnds := by
  rintro s r s1 s2 s3 hfetch hr hself hpc ⟨o, t, h⟩
  have hfirst := hostStep_selfJump hfetch hr hself hpc
  have hloop := hostStep_selfJump (s := s.withRemReport s.rem (some .continued)) hfetch hr hself hpc
  rcases runEnds_iff.1 h with ⟨hstep, hstops⟩ | ⟨u, hstep, hrun⟩ <;> cases hfirst.symm.trans hstep
  · cases hstops
  · exact not_runEnds_of_hostStep_self hloop o t hrun

/-- A judged run ends at its first step's fault (R186). -/
theorem core_run_of_fault {s : State} {f : Fault} (h : step s = .fault f) (n : Nat) :
    Sys2Proof.core.run (n + 1) s = .fault f := by
  have hcore : Sys2Proof.core.step s = .fault f := h
  simp only [Host.Core.run, hcore]

/-- Settles O20: a fault changes only the report, which the next step does not read. -/
theorem faultRepeatsUntilHostActs : Obligations.FaultRepeatsUntilHostActs := by
  intro s t f h
  obtain ⟨hstep, rfl⟩ := hostStep_eq_faulted.1 h
  have hagain : step (s.withRemReport s.rem (some (.faulted f))) = .fault f :=
    ((remainderAndReportAreNeverRead s s.rem (some (.faulted f))).1 f).2 hstep
  exact ⟨(addr_of_step_eq_fault hstep).symm, hostStep_eq_faulted.2 ⟨hagain, rfl⟩, runEnds_iff.2 (.inl ⟨h, rfl⟩),
    core_run_of_fault hstep⟩

/-! ## The host's operations -/

theorem presetPc_eq_some {n : Nat} {s t : State} :
    presetPc n s = some t ↔ n < 2 ^ s.cfg.pcBits ∧ t = { s with pc := n } := by
  unfold presetPc
  split_ifs with h <;> simp [h, eq_comm]

/-- Settles O53, by the definition of each preset and read after write. -/
theorem presetsReachOnlyTheirTarget : Obligations.PresetsReachOnlyTheirTarget := by
  refine fun s => ⟨fun i v => ⟨rfl, s.reg_setReg_self i v⟩, fun n => ⟨fun h => ?_, fun h => ?_⟩, fun b => rfl⟩
  · exact presetPc_eq_some.2 ⟨h, rfl⟩
  · exact if_neg (Nat.not_lt.2 h)

/-- Outside the parameters and the buffer, the invariant asks only that the program counter is below 2^PC_BITS. -/
theorem State.Inv.of_pc_lt {s : State} (hs : s.Inv) {x : Vector Word 32} {pc : Nat} {rem : Word} {eqf : Bool}
    {report : Option Report} (hpc : pc < 2 ^ s.cfg.pcBits) :
    State.Inv { s with x := x, pc := pc, rem := rem, eqf := eqf, report := report } :=
  ⟨hs.cfg_wf, hs.prog_wf, hs.prog_below_len, hs.len_le, hpc⟩

theorem appendByte_inv {s : State} (hs : s.Inv) (b : Byte) : (appendByte b s).2.Inv := by
  obtain ⟨hwf, hbelow⟩ := appendByte_wf hs.prog_wf hs.prog_below_len b
  rcases appendByte_cases b s with ⟨hroom, e⟩ | ⟨-, e⟩ <;> rw [e] at hwf hbelow ⊢
  · refine ⟨hs.cfg_wf, hwf, hbelow, ?_, hs.pc_lt⟩
    rw [State.placeByte_len_self]
    exact hroom
  · exact hs

theorem hostStep_inv {s t : State} {r : Report} (hs : s.Inv) (h : hostStep s = some (r, t)) : t.Inv := by
  rcases hostStep_eq_some.1 h with ⟨hstep, -⟩ | ⟨f, -, -, rfl⟩
  · exact everyStepKeepsInvariant s t hs hstep
  · exact hs.of_pc_lt hs.pc_lt

theorem runEnds_inv {s t : State} {r : Report} (hs : s.Inv) (h : RunEnds s r t) : t.Inv :=
  RunEnds.induction (motive := fun s => s.Inv → t.Inv) (fun _ hstep _ hs => hostStep_inv hs hstep)
    (fun _ _ hstep ih hs => ih (hostStep_inv hs hstep)) h hs

/-- Settles O54, one operation at a time; a run is its host steps. -/
theorem hostKeepsInvariant : Obligations.HostKeepsInvariant := by
  intro s hs
  refine ⟨appendByte_inv hs, fun i v => ?_, fun b => ?_, fun n t h => ?_, fun r t => hostStep_inv hs, fun r t => runEnds_inv hs⟩
  · exact hs.of_pc_lt hs.pc_lt
  · exact hs.of_pc_lt hs.pc_lt
  · obtain ⟨hlt, rfl⟩ := presetPc_eq_some.1 h
    exact hs.of_pc_lt hlt

/-! ## The pseudocode -/

theorem withReg_of_lt {b : Byte} (h : b.toNat < 32) (s : State) (k : Fin 32 → Result) : withReg b s k = k ⟨b.toNat, h⟩ :=
  withReg_of_eq rfl s k

namespace Reference

/-! The pseudocode's reads and writes of a slot that the range check has passed, its two kinds of jump, and its widening of
LOAD's immediate are the machine's. -/

theorem rx_of_lt {b : Byte} (h : b.toNat < 32) (s : State) : rx s b = (s.reg ⟨b.toNat, h⟩).toInt := by
  simp [rx, State.reg, h]

theorem wx_of_lt {b : Byte} (h : b.toNat < 32) (s : State) (v : Word) : wx s b v = s.setReg ⟨b.toNat, h⟩ v := by
  simp [wx, State.setReg, Vector.setIfInBounds, Vector.set, Array.setIfInBounds, h]

theorem jump_absolute (v : Word) (s : State) :
    jump s v.toInt (.negativeJumpTarget (wrap32 v.toInt) s.pc) = absoluteJump v s := by
  rw [wrap32_toInt, jump, absoluteJump, Nat.cast_pow]
  rfl

theorem jump_relative (n : Int) (s : State) : jump s n (.pcUnderflow n s.pc) = relativeJump n s := by
  rw [jump, relativeJump, Nat.cast_pow]
  rfl

theorem wrap32_widened (e : ImmExt) (imm : Half) :
    wrap32 (if e = .sign ∧ 32768 ≤ imm.toNat then (imm.toNat : Int) - 65536 else imm.toNat) = widenImm e imm := by
  cases e with
  | zero => simp [wrap32, widenImm]
  | sign =>
    have hsigned : (if ImmExt.sign = .sign ∧ 32768 ≤ imm.toNat then (imm.toNat : Int) - 65536 else imm.toNat) =
        imm.toInt := by
      rw [BitVec.toInt_eq_toNat_cond]
      simp only [true_and]
      split_ifs <;> omega
    rw [hsigned]
    rfl

theorem usedSlots_instrOf (k : Opcode) (b1 b2 b3 : Byte) : (instrOf k b1 b2 b3).usedSlots = usedSlots k b1 b2 b3 := by
  cases k <;> rfl

/-- `execute_*` is the instruction's meaning where every used slot is in range (files 41 to 46). -/
theorem exec_instrOf_eq_execute {k : Opcode} {b1 b2 b3 : Byte} {s : State}
    (hslots : ∀ b ∈ usedSlots k b1 b2 b3, b.toNat < 32) :
    exec (instrOf k b1 b2 b3) s = execute s k s.pc b1 b2 b3 := by
  cases k with
  | load =>
    have h1 : b1.toNat < 32 := by simpa [usedSlots] using hslots
    simp only [execute, ← immOfBytes_toNat, wrap32_widened, wx_of_lt h1]
    exact withReg_of_lt h1 s _
  | add | sub | mul | div =>
    obtain ⟨h1, h2, h3⟩ : b1.toNat < 32 ∧ b2.toNat < 32 ∧ b3.toNat < 32 := by simpa [usedSlots] using hslots
    simp only [execute, rx_of_lt h1, rx_of_lt h2, wx_of_lt h3]
    exact (withReg_of_lt h1 s _).trans ((withReg_of_lt h2 s _).trans (withReg_of_lt h3 s _))
  | eq | neq | lt | gt | ltq | gtq =>
    obtain ⟨h1, h2⟩ : b1.toNat < 32 ∧ b2.toNat < 32 := by simpa [usedSlots] using hslots
    simp only [execute, rx_of_lt h1, rx_of_lt h2]
    exact (withReg_of_lt h1 s _).trans (withReg_of_lt h2 s _)
  | jmp | jmpf | jmpb | jeq | jneq =>
    have h1 : b1.toNat < 32 := by simpa [usedSlots] using hslots
    simp only [execute, rx_of_lt h1, jump_absolute, jump_relative, ← Bool.not_eq_true']
    exact withReg_of_lt h1 s _
  | hlt => rfl

end Reference

/-- Settles O12, by what the fetch finds: the end, an unmapped byte, HLT, too few bytes, and four bytes whose used slots pass
the range check or do not. -/
theorem stepIsThePseudocode : Obligations.StepIsThePseudocode := by
  intro s
  unfold Reference.step
  dsimp only
  split
  case isTrue hend => exact step_of_end hend
  case isFalse hend =>
    have hop : s.progByte s.pc = some (Memory.read s.prog s.pc) := State.progByte_of_lt (Nat.lt_of_not_le hend)
    split
    case h_1 hnone => exact step_of_fetch (fetch_of_unmapped hop hnone)
    case h_2 hhlt => exact step_of_fetch (fetch_of_hlt hop hhlt)
    case h_3 k hne hk =>
      split
      case isTrue hlen => exact step_of_truncated hop hk hne hlen
      case isFalse hlen =>
        have hfetch := fetch_of_four_bytes hop hk hne (State.progByte_of_lt (by omega))
          (State.progByte_of_lt (by omega)) (State.progByte_of_lt (by omega))
        rw [step_of_fetch hfetch]
        split
        case h_1 b hfind =>
          rw [← Reference.usedSlots_instrOf] at hfind
          exact (exec_rangeChecks _ s b s.pc).2 ⟨hfind, rfl⟩
        case h_2 hfind =>
          exact Reference.exec_instrOf_eq_execute fun b hb => by simpa using List.find?_eq_none.1 hfind b hb

end Sys2Proof.Machine

/-!
LOAD (spec/41_load.md), and what every four-byte instruction shares with it: the encoding and the truncation fault
(spec/30_encoding.md R61, R62; spec/40_engine_cycle.md R95).
-/

namespace Sys2Proof.Machine

/-! ## Four-byte instructions -/

/-- The encoding of every opcode but HLT, of which only the default byte is the opcode's own. -/
theorem fourByteForm_instrOf {byte : Byte} {k : Opcode} (hbyte : encodeOpcode OpcodeMap.default k = byte) (hk : k ≠ .hlt) :
    FourByteForm byte k (instrOf k) where
  byte_eq := hbyte
  decodes _ b1 b2 b3 rest hm := decode_four_bytes (decodeOpcode_encodeOpcode hm k) hk b1 b2 b3 rest
  truncates _ hs hop hlen := step_of_truncated hop (decodeOpcode_encodeOpcode (opcodeMap_wf_of_wf hs) k) hk hlen

/-! ## LOAD's immediate -/

/-- Sign extension keeps the immediate's signed value (R110). -/
theorem toInt_widenImm_sign (imm : Half) : (widenImm .sign imm).toInt = imm.toInt :=
  BitVec.toInt_signExtend_of_le (by decide)

/-- Zero extension keeps the immediate's unsigned value, which 16 bits leave below the word's sign bit (R110). -/
theorem toInt_widenImm_zero (imm : Half) : (widenImm .zero imm).toInt = imm.toNat := by
  have himm : imm.toNat < 2 ^ 16 := imm.isLt
  have hnat : (widenImm .zero imm).toNat = imm.toNat := BitVec.toNat_setWidth_of_le (by decide)
  rw [BitVec.toInt_eq_toNat_of_lt (by omega), hnat]

theorem exec_load_of_ge {s1 : Byte} (h : 32 ≤ s1.toNat) (imm : Half) (s : State) :
    exec (.load s1 imm) s = .fault (.registerOutOfRange s1 s.pc) :=
  withReg_of_ge h s _

/-- Settles O30: the encoding is that of every four-byte instruction, and the word that LOAD writes is its widened immediate,
with the value of each setting of LOAD_IMM_EXT. -/
theorem loadWritesWidenedImmediate : Obligations.LoadWritesWidenedImmediate := by
  refine ⟨fourByteForm_instrOf (by decide) nofun, immOfBytes_toNat, fun s s1 imm h => exec_load_of_ge h imm s, ?_⟩
  intro s d s1 imm hd
  refine ⟨widenImm s.cfg.loadImmExt imm, ?_, exec_load_of_eq hd imm s⟩
  cases s.cfg.loadImmExt with
  | sign => exact toInt_widenImm_sign imm
  | zero => exact toInt_widenImm_zero imm

end Sys2Proof.Machine

/-!
ADD, SUB, MUL and DIV (spec/42_arithmetic.md): the integer division of R120, its agreement with the division of 32-bit words,
and the rule of each instruction.
-/

namespace Sys2Proof.Machine

/-! ## Division -/

theorem natAbs_tdiv (a b : Int) : (tdiv a b).natAbs = a.natAbs / b.natAbs :=
  Int.natAbs_tdiv a b

theorem trem_eq_tmod (a b : Int) : trem a b = a.tmod b :=
  (Int.tmod_def a b).symm

theorem natAbs_trem (a b : Int) : (trem a b).natAbs = a.natAbs % b.natAbs := by
  rw [trem_eq_tmod, Int.natAbs_tmod]

theorem eq_mul_tdiv_add_trem (a b : Int) : a = b * tdiv a b + trem a b := by
  rw [trem]
  omega

/-- Rounding toward zero loses the sign exactly when the dividend is the smaller in magnitude (R120, D5). -/
theorem tdiv_neg_iff {a b : Int} :
    tdiv a b < 0 ↔ ((a < 0 ∧ 0 < b) ∨ (0 < a ∧ b < 0)) ∧ b.natAbs ≤ a.natAbs := by
  rw [← Int.sign_eq_neg_one_iff_neg, tdiv, Int.sign_tdiv]
  split_ifs with hlt
  · simp [hlt]
  · rw [← Int.sign_mul, Int.sign_eq_neg_one_iff_neg, mul_neg_iff, and_iff_left (not_lt.1 hlt)]
    exact or_comm

/-- The remainder takes the dividend's sign (R120, D5). -/
theorem trem_eq_zero_or_neg_iff (a b : Int) : trem a b = 0 ∨ (trem a b < 0 ↔ a < 0) := by
  have hsign := Int.sign_tmod a b
  rw [← trem_eq_tmod] at hsign
  split_ifs at hsign
  · exact .inl (Int.sign_eq_zero_iff_zero.1 hsign)
  · exact .inr (by rw [← Int.sign_eq_neg_one_iff_neg, hsign, Int.sign_eq_neg_one_iff_neg])

/-- Settles O37, by the magnitude and the sign of the quotient and of the remainder. -/
theorem divisionRoundsTowardZero : Obligations.DivisionRoundsTowardZero := fun a b hb =>
  ⟨natAbs_tdiv a b, tdiv_neg_iff, eq_mul_tdiv_add_trem a b, trem_eq_zero_or_neg_iff a b,
    natAbs_trem a b ▸ Nat.mod_lt _ (Int.natAbs_pos.2 hb)⟩

/-! ## The arithmetic of words -/

/-- A word operation is the wrapping of an exact one when its signed value is the exact result reduced to 32 bits. -/
theorem wrap32_eq_of_toInt {z : Int} {w : Word} (h : w.toInt = z.bmod 4294967296) : wrap32 z = w :=
  BitVec.eq_of_toInt_eq ((toInt_wrap32 z).trans h.symm)

/-- The remainder fits 32 bits: it is the signed value of the word remainder (R120). -/
theorem trem_toInt (A B : Word) : trem A.toInt B.toInt = (A.srem B).toInt := by
  rw [trem_eq_tmod, BitVec.toInt_srem]

/-- Settles O39: the signed value of each word operation is the exact result reduced to 32 bits. -/
theorem arithmeticIsTwosComplement : Obligations.ArithmeticIsTwosComplement := by
  intro A B
  refine ⟨wrap32_eq_of_toInt (BitVec.toInt_add A B), wrap32_eq_of_toInt BitVec.toInt_sub,
    wrap32_eq_of_toInt (BitVec.toInt_mul A B), fun _ => ⟨wrap32_eq_of_toInt (BitVec.toInt_sdiv A B), ?_⟩⟩
  rw [trem_toInt, wrap32_toInt]
  exact ⟨rfl, rfl⟩

/-! ## What the instructions with three register slots share -/

theorem instrOf_operandBytes {k : Opcode} (hk : k.arity = .arity3) (b1 b2 b3 : Byte) :
    (instrOf k b1 b2 b3).operandBytes = [b1, b2, b3] := by
  cases k with
  | load | hlt => cases hk
  | _ => rfl

/-- The line of an arity-3 opcode gives its opcode byte and its three slots (R72, R74). -/
theorem assemblesSlots_of_arity {k : Opcode} (hk : k.arity = .arity3) : AssemblesSlots k := by
  intro m n1 n2 n3 h1 h2 h3
  refine assemble_eq_ok.2 ⟨_, (AsmLine.instr_slots_eq_ok hk).2 ⟨h1, h2, h3, rfl⟩, ?_⟩
  exact encode_eq_some.2 ⟨k, instrOf_opcode .., by rw [instrOf_operandBytes hk]⟩

/-- The first used slot of 32 or more raises RegisterOutOfRange with its byte (R96). -/
theorem exec_of_badSlot {i : Instr} {b : Byte} (h : i.usedSlots.find? (fun b => decide (32 ≤ b.toNat)) = some b)
    (s : State) : exec i s = .fault (.registerOutOfRange b s.pc) :=
  (exec_rangeChecks i s b s.pc).2 ⟨h, rfl⟩

theorem checksSlots12_of_usedSlots {mk : Byte → Byte → Byte → Instr}
    (h : ∀ s1 s2 s3, [s1, s2] <+: (mk s1 s2 s3).usedSlots) : ChecksSlots12 mk := by
  intro s s1 s2 s3
  obtain ⟨more, hslots⟩ := h s1 s2 s3
  constructor
  · intro h1
    exact exec_of_badSlot (by simp [← hslots, h1]) s
  · intro h1 h2
    exact exec_of_badSlot (by simp [← hslots, h1, h2]) s

theorem checksSlots123_of_usedSlots {mk : Byte → Byte → Byte → Instr}
    (h : ∀ s1 s2 s3, (mk s1 s2 s3).usedSlots = [s1, s2, s3]) : ChecksSlots123 mk := by
  refine ⟨checksSlots12_of_usedSlots fun s1 s2 s3 => ⟨[s3], (h s1 s2 s3).symm⟩, ?_⟩
  intro s s1 s2 s3 h1 h2 h3
  exact exec_of_badSlot (by simp [h, h1, h2, h3]) s

/-! ## ADD, SUB and MUL -/

theorem arith_of_eq {s1 s2 s3 : Byte} {r1 r2 r3 : Fin 32} (h1 : s1.toNat = r1) (h2 : s2.toNat = r2) (h3 : s3.toNat = r3)
    (op : Int → Int → Int) (s : State) :
    arith op s1 s2 s3 s = .next { s.setReg r3 (wrap32 (op (s.reg r1).toInt (s.reg r2).toInt)) with
      pc := s.pc + 4, report := some .continued } := by
  rw [arith, withReg_of_eq h1, withReg_of_eq h2, withReg_of_eq h3]
  rfl

/-- The rule of an arity-3 opcode whose instruction uses all three slots and whose meaning is `arith`. -/
theorem arithmeticRule_instrOf {byte : Byte} {k : Opcode} {op : Int → Int → Int}
    (hbyte : encodeOpcode OpcodeMap.default k = byte) (harity : k.arity = .arity3)
    (hslots : ∀ s1 s2 s3, (instrOf k s1 s2 s3).usedSlots = [s1, s2, s3])
    (hexec : ∀ s1 s2 s3 s, exec (instrOf k s1 s2 s3) s = arith op s1 s2 s3 s) : ArithmeticRule byte k (instrOf k) op where
  form := fourByteForm_instrOf hbyte (by rintro rfl; cases harity)
  assembles := assemblesSlots_of_arity harity
  checks := checksSlots123_of_usedSlots hslots
  completes s _ _ _ s1 s2 s3 h1 h2 h3 := (hexec s1 s2 s3 s).trans (arith_of_eq h1 h2 h3 op s)

theorem exec_add (s1 s2 s3 : Byte) (s : State) : exec (.add s1 s2 s3) s = arith (fun A B => A + B) s1 s2 s3 s := rfl

theorem exec_sub (s1 s2 s3 : Byte) (s : State) : exec (.sub s1 s2 s3) s = arith (fun A B => A - B) s1 s2 s3 s := rfl

theorem exec_mul (s1 s2 s3 : Byte) (s : State) : exec (.mul s1 s2 s3) s = arith (fun A B => A * B) s1 s2 s3 s := rfl

/-- Settles O31: ADD is the exact sum, wrapped. -/
theorem addWritesWrappedSum : Obligations.AddWritesWrappedSum :=
  arithmeticRule_instrOf (k := .add) (by decide) rfl (fun _ _ _ => rfl) exec_add

/-- Settles O32: SUB is the exact difference, wrapped. -/
theorem subWritesWrappedDifference : Obligations.SubWritesWrappedDifference :=
  arithmeticRule_instrOf (k := .sub) (by decide) rfl (fun _ _ _ => rfl) exec_sub

/-- Settles O33: MUL is the exact product, wrapped. -/
theorem mulWritesWrappedProduct : Obligations.MulWritesWrappedProduct :=
  arithmeticRule_instrOf (k := .mul) (by decide) rfl (fun _ _ _ => rfl) exec_mul

/-! ## DIV -/

theorem word_toInt_eq_zero {w : Word} : w.toInt = 0 ↔ w = 0 :=
  BitVec.toInt_inj (y := 0)

section
variable {s1 s2 s3 : Byte} {r1 r2 r3 : Fin 32} (h1 : s1.toNat = r1) (h2 : s2.toNat = r2) (h3 : s3.toNat = r3) (s : State)
include h1 h2 h3

/-- DIV with all slots in range: the fault of a zero divisor, or both results from the values read (R124, R125, R128). -/
theorem exec_div_of_eq :
    exec (.div s1 s2 s3) s =
      if s.reg r2 = 0 then .fault (.divideByZero s.pc)
      else .next { (s.setReg r3 (wrap32 (tdiv (s.reg r1).toInt (s.reg r2).toInt))).setRem
        (wrap32 (trem (s.reg r1).toInt (s.reg r2).toInt)) with pc := s.pc + 4, report := some .continued } := by
  change execDiv s1 s2 s3 s = _
  simp only [execDiv, withReg_of_eq h1, withReg_of_eq h2, withReg_of_eq h3, word_toInt_eq_zero]
  rfl

theorem exec_div_of_ne_zero (h : s.reg r2 ≠ 0) :
    exec (.div s1 s2 s3) s =
      .next { (s.setReg r3 (wrap32 (tdiv (s.reg r1).toInt (s.reg r2).toInt))).setRem
        (wrap32 (trem (s.reg r1).toInt (s.reg r2).toInt)) with pc := s.pc + 4, report := some .continued } := by
  rw [exec_div_of_eq h1 h2 h3, if_neg h]

end

/-- Settles O34: DIV's encoding and checks are those of its family, and a divisor other than 0 does not fault. -/
theorem divWritesQuotientAndRemainder : Obligations.DivWritesQuotientAndRemainder :=
  ⟨fourByteForm_instrOf (k := .div) (by decide) nofun, assemblesSlots_of_arity rfl,
    checksSlots123_of_usedSlots fun _ _ _ => rfl, fun s _ _ _ _ _ _ h1 h2 h3 h => exec_div_of_ne_zero h1 h2 h3 s h⟩

/-- Settles O35: a divisor of 0 faults once the slots are in range. -/
theorem divideByZeroFaults : Obligations.DivideByZeroFaults := by
  intro s r1 r2 r3 s1 s2 s3 h1 h2 h3 h
  rw [exec_div_of_eq h1 h2 h3, if_pos h]

/-- Settles O36: the exact quotient 2^31 wraps to -2^31, and the division leaves no remainder. -/
theorem divisionOverflowWraps : Obligations.DivisionOverflowWraps := by
  intro s r1 r2 r3 s1 s2 s3 h1 h2 h3 hA hB
  have hne : s.reg r2 ≠ 0 := fun h0 => by
    rw [word_toInt_eq_zero.2 h0] at hB
    cases hB
  have hquot : (wrap32 (tdiv (-2147483648) (-1))).toInt = -2147483648 := by decide
  have hrem : (wrap32 (trem (-2147483648) (-1))).toInt = 0 := by decide
  refine ⟨_, exec_div_of_ne_zero h1 h2 h3 s hne, ?_, ?_, rfl⟩
  · rw [← hA, ← hB] at hquot
    exact (congrArg BitVec.toInt (State.reg_setReg_self s r3 _)).trans (hquot.trans hA)
  · rwa [← hA, ← hB] at hrem

end Sys2Proof.Machine

/-!
JMP, JMPF and JMPB (spec/43_jumps.md): the three ranges of an exact target, the rule of each instruction, and the offset that
reaches a target.
-/

namespace Sys2Proof.Machine

/-! ## The range of the target -/

section
variable {s : State}

theorem absoluteJump_of_neg {v : Word} (h : v.toInt < 0) : absoluteJump v s = .fault (.negativeJumpTarget v s.pc) :=
  if_pos h

theorem absoluteJump_of_ge {v : Word} (h : ((2 ^ s.cfg.pcBits : Nat) : Int) ≤ v.toInt) :
    absoluteJump v s = .fault (.pcOverflow v.toInt s.pc) := by
  rcases absoluteJump_cases v s with ⟨hneg, -⟩ | ⟨-, -, e⟩ | ⟨-, hlt, -⟩
  · exact absurd ((Int.natCast_nonneg _).trans h) (not_le.2 hneg)
  · exact e
  · exact absurd h (not_le.2 hlt)

theorem absoluteJump_of_eq {v : Word} {n : Nat} (hn : n < 2 ^ s.cfg.pcBits) (h : v.toInt = n) :
    absoluteJump v s = .next { s with pc := n, report := some .continued } := by
  rcases absoluteJump_cases v s with ⟨hneg, -⟩ | ⟨-, hge, -⟩ | ⟨-, -, e⟩
  · omega
  · omega
  · rw [e, h]
    rfl

theorem relativeJump_of_neg {t : Int} (h : t < 0) : relativeJump t s = .fault (.pcUnderflow t s.pc) :=
  if_pos h

theorem relativeJump_of_ge {t : Int} (h : ((2 ^ s.cfg.pcBits : Nat) : Int) ≤ t) :
    relativeJump t s = .fault (.pcOverflow t s.pc) := by
  rcases relativeJump_cases t s with ⟨hneg, -⟩ | ⟨-, -, e⟩ | ⟨-, hlt, -⟩
  · exact absurd ((Int.natCast_nonneg _).trans h) (not_le.2 hneg)
  · exact e
  · exact absurd h (not_le.2 hlt)

theorem relativeJump_of_eq {t : Int} {n : Nat} (hn : n < 2 ^ s.cfg.pcBits) (h : t = n) :
    relativeJump t s = .next { s with pc := n, report := some .continued } := by
  rcases relativeJump_cases t s with ⟨hneg, -⟩ | ⟨-, hge, -⟩ | ⟨-, -, e⟩
  · omega
  · omega
  · rw [e, h]
    rfl

end

/-! ## What the jumps share -/

theorem checksSlot1_of_usedSlots {mk : Byte → Byte → Byte → Instr}
    (h : ∀ s1 s2 s3, (mk s1 s2 s3).usedSlots = [s1]) : ChecksSlot1 mk := by
  intro s s1 s2 s3 h1
  exact exec_of_badSlot (by simp [h, h1]) s

/-- An instruction that jumps to its register's value does so as R140 says, whatever its other slots hold. -/
theorem absoluteJump_of_exec {mk : Byte → Byte → Byte → Instr} {s : State} {r : Fin 32} {s1 s2 s3 : Byte}
    (hexec : exec (mk s1 s2 s3) s = absoluteJump (s.reg r) s) : AbsoluteJump mk s r s1 s2 s3 where
  completes _ hn h := hexec.trans (absoluteJump_of_eq hn h)
  negative h := hexec.trans (absoluteJump_of_neg h)
  overflows h := hexec.trans (absoluteJump_of_ge h)

/-- The rule of an arity-3 opcode whose instruction uses slot s1 alone and jumps to the exact target. -/
theorem relativeJumpRule_instrOf {byte : Byte} {k : Opcode} {target : Int → Int → Int}
    (hbyte : encodeOpcode OpcodeMap.default k = byte) (harity : k.arity = .arity3)
    (hslots : ∀ s1 s2 s3, (instrOf k s1 s2 s3).usedSlots = [s1])
    (hexec : ∀ {s1 : Byte} {r : Fin 32}, s1.toNat = r → ∀ (s2 s3 : Byte) (s : State),
      exec (instrOf k s1 s2 s3) s = relativeJump (target s.pc (s.reg r).toInt) s) :
    RelativeJumpRule byte k (instrOf k) target where
  form := fourByteForm_instrOf hbyte (by rintro rfl; cases harity)
  assembles := assemblesSlots_of_arity harity
  checks := checksSlot1_of_usedSlots hslots
  completes s _ _ s2 s3 h1 _ hn ht := (hexec h1 s2 s3 s).trans (relativeJump_of_eq hn ht)
  underflows s _ _ s2 s3 h1 ht := (hexec h1 s2 s3 s).trans (relativeJump_of_neg ht)
  overflows s _ _ s2 s3 h1 ht := (hexec h1 s2 s3 s).trans (relativeJump_of_ge ht)

/-! ## JMP, JMPF and JMPB -/

section
variable {s1 : Byte} {r : Fin 32} (h1 : s1.toNat = r) (s2 s3 : Byte) (s : State)
include h1

theorem exec_jmp_of_eq : exec (.jmp s1 s2 s3) s = absoluteJump (s.reg r) s :=
  withReg_of_eq h1 s _

theorem exec_jmpf_of_eq : exec (.jmpf s1 s2 s3) s = relativeJump ((s.pc + 2) + (s.reg r).toInt) s :=
  withReg_of_eq h1 s _

theorem exec_jmpb_of_eq : exec (.jmpb s1 s2 s3) s = relativeJump ((s.pc + 2) - (s.reg r).toInt) s :=
  withReg_of_eq h1 s _

end

/-- Settles O40: JMP's encoding and check are those of its family, and its target is the register's value. -/
theorem jmpGoesToRegisterValue : Obligations.JmpGoesToRegisterValue :=
  ⟨fourByteForm_instrOf (k := .jmp) (by decide) nofun, assemblesSlots_of_arity rfl,
    checksSlot1_of_usedSlots fun _ _ _ => rfl, fun s _ _ s2 s3 h1 => absoluteJump_of_exec (exec_jmp_of_eq h1 s2 s3 s)⟩

/-- Settles O41: JMPF's exact target is the address plus 2 plus the register's value. -/
theorem jmpfMovesForwardFromAddressPlusTwo : Obligations.JmpfMovesForwardFromAddressPlusTwo :=
  relativeJumpRule_instrOf (k := .jmpf) (by decide) rfl (fun _ _ _ => rfl) exec_jmpf_of_eq

/-- Settles O42: JMPB's exact target is the address plus 2 minus the register's value. -/
theorem jmpbMovesBackFromAddressPlusTwo : Obligations.JmpbMovesBackFromAddressPlusTwo :=
  relativeJumpRule_instrOf (k := .jmpb) (by decide) rfl (fun _ _ _ => rfl) exec_jmpb_of_eq

/-- Settles O43: with that offset the exact target of JMPF (O41) and of JMPB (O42) is `T`. -/
theorem relativeOffsetReachesTarget : Obligations.RelativeOffsetReachesTarget := by
  intro s r s1 s2 s3 T h1 hT
  constructor
  · intro hv
    have htarget : ((s.pc + 2) + (s.reg r).toInt : Int) = T := by omega
    exact jmpfMovesForwardFromAddressPlusTwo.completes s r s1 s2 s3 h1 T hT htarget
  · intro hv
    have htarget : ((s.pc + 2) - (s.reg r).toInt : Int) = T := by omega
    exact jmpbMovesBackFromAddressPlusTwo.completes s r s1 s2 s3 h1 T hT htarget

end Sys2Proof.Machine

/-!
The six comparisons (spec/44_compare.md): the relation each decides, the rule they share, and its six instances.
-/

namespace Sys2Proof.Machine

/-! ## The relations of R150's table -/

theorem cmpEq_iff (A B : Word) : cmpEq A B = true ↔ A.toInt = B.toInt := decide_eq_true_iff

theorem cmpNeq_iff (A B : Word) : cmpNeq A B = true ↔ A.toInt ≠ B.toInt := decide_eq_true_iff

theorem cmpLt_iff (A B : Word) : cmpLt A B = true ↔ A.toInt < B.toInt := decide_eq_true_iff

theorem cmpGt_iff (A B : Word) : cmpGt A B = true ↔ A.toInt > B.toInt := decide_eq_true_iff

theorem cmpLtq_iff (A B : Word) : cmpLtq A B = true ↔ A.toInt ≤ B.toInt := decide_eq_true_iff

theorem cmpGtq_iff (A B : Word) : cmpGtq A B = true ↔ A.toInt ≥ B.toInt := decide_eq_true_iff

/-! ## What the comparisons share -/

theorem compareWith_of_eq {s1 s2 : Byte} {r1 r2 : Fin 32} (h1 : s1.toNat = r1) (h2 : s2.toNat = r2)
    (cmp : Word → Word → Bool) (s : State) :
    compareWith cmp s1 s2 s =
      .next { s with eqf := cmp (s.reg r1) (s.reg r2), pc := s.pc + 4, report := some .continued } := by
  rw [compareWith, withReg_of_eq h1, withReg_of_eq h2]
  rfl

/-- The rule of an arity-3 opcode whose instruction uses slots s1 and s2 alone and whose meaning is `compareWith` of a test
that decides `rel` on the signed values. -/
theorem comparisonRule_instrOf {byte : Byte} {k : Opcode} {cmp : Word → Word → Bool} {rel : Int → Int → Prop}
    (hbyte : encodeOpcode OpcodeMap.default k = byte) (harity : k.arity = .arity3)
    (hslots : ∀ s1 s2 s3, (instrOf k s1 s2 s3).usedSlots = [s1, s2])
    (hexec : ∀ s1 s2 s3 s, exec (instrOf k s1 s2 s3) s = compareWith cmp s1 s2 s)
    (hcmp : ∀ A B, cmp A B = true ↔ rel A.toInt B.toInt) : ComparisonRule byte k (instrOf k) rel where
  form := fourByteForm_instrOf hbyte (by rintro rfl; cases harity)
  assembles := assemblesSlots_of_arity harity
  checks := checksSlots12_of_usedSlots fun s1 s2 s3 => ⟨[], (hslots s1 s2 s3).symm⟩
  completes s r1 r2 s1 s2 s3 h1 h2 :=
    ⟨cmp (s.reg r1) (s.reg r2), hcmp _ _, (hexec s1 s2 s3 s).trans (compareWith_of_eq h1 h2 cmp s)⟩

/-! ## EQ, NEQ, LT, GT, LTQ and GTQ -/

section
variable (s1 s2 s3 : Byte) (s : State)

theorem exec_eq : exec (.eq s1 s2 s3) s = compareWith cmpEq s1 s2 s := rfl

theorem exec_neq : exec (.neq s1 s2 s3) s = compareWith cmpNeq s1 s2 s := rfl

theorem exec_lt : exec (.lt s1 s2 s3) s = compareWith cmpLt s1 s2 s := rfl

theorem exec_gt : exec (.gt s1 s2 s3) s = compareWith cmpGt s1 s2 s := rfl

theorem exec_ltq : exec (.ltq s1 s2 s3) s = compareWith cmpLtq s1 s2 s := rfl

theorem exec_gtq : exec (.gtq s1 s2 s3) s = compareWith cmpGtq s1 s2 s := rfl

end

/-- Settles O44: each comparison's test decides its relation on the registers' signed values, s1's on the left. -/
theorem comparisonsSetTheFlag : Obligations.ComparisonsSetTheFlag :=
  ⟨comparisonRule_instrOf (k := .eq) (by decide) rfl (fun _ _ _ => rfl) exec_eq cmpEq_iff,
    comparisonRule_instrOf (k := .neq) (by decide) rfl (fun _ _ _ => rfl) exec_neq cmpNeq_iff,
    comparisonRule_instrOf (k := .lt) (by decide) rfl (fun _ _ _ => rfl) exec_lt cmpLt_iff,
    comparisonRule_instrOf (k := .gt) (by decide) rfl (fun _ _ _ => rfl) exec_gt cmpGt_iff,
    comparisonRule_instrOf (k := .ltq) (by decide) rfl (fun _ _ _ => rfl) exec_ltq cmpLtq_iff,
    comparisonRule_instrOf (k := .gtq) (by decide) rfl (fun _ _ _ => rfl) exec_gtq cmpGtq_iff⟩

end Sys2Proof.Machine

/-!
JEQ and JNEQ (spec/45_conditional_jumps.md): the two cases of a conditional jump whose slot is in range, the rule they share,
and its two instances.
-/

namespace Sys2Proof.Machine

/-! ## What the conditional jumps share -/

section
variable {s1 : Byte} {r : Fin 32} (h1 : s1.toNat = r) (s : State)
include h1

theorem condJump_true_of_eq : condJump true s1 s = absoluteJump (s.reg r) s :=
  withReg_of_eq h1 s _

theorem condJump_false_of_eq : condJump false s1 s = .next { s with pc := s.pc + 4, report := some .continued } :=
  withReg_of_eq h1 s _

end

/-- The rule of an arity-3 opcode whose instruction uses slot s1 alone and jumps when the flag is `cond`. -/
theorem conditionalJumpRule_instrOf {byte : Byte} {k : Opcode} {cond : Bool}
    (hbyte : encodeOpcode OpcodeMap.default k = byte) (harity : k.arity = .arity3)
    (hslots : ∀ s1 s2 s3, (instrOf k s1 s2 s3).usedSlots = [s1])
    (hexec : ∀ s1 s2 s3 s, exec (instrOf k s1 s2 s3) s = condJump (s.eqf == cond) s1 s) :
    ConditionalJumpRule byte k (instrOf k) cond where
  form := fourByteForm_instrOf hbyte (by rintro rfl; cases harity)
  assembles := assemblesSlots_of_arity harity
  checks := checksSlot1_of_usedSlots hslots
  taken s _ s1 s2 s3 h1 hflag := absoluteJump_of_exec <| by
    rw [hexec, beq_iff_eq.2 hflag, condJump_true_of_eq h1]
  notTaken s _ s1 s2 s3 h1 hflag := by
    rw [hexec, beq_eq_false_iff_ne.2 hflag, condJump_false_of_eq h1]

/-! ## JEQ and JNEQ -/

section
variable (s1 s2 s3 : Byte) (s : State)

theorem exec_jeq : exec (.jeq s1 s2 s3) s = condJump (s.eqf == true) s1 s := by
  rw [beq_true]
  rfl

theorem exec_jneq : exec (.jneq s1 s2 s3) s = condJump (s.eqf == false) s1 s := by
  rw [beq_false]
  rfl

end

/-- Settles O45: JEQ is the conditional jump taken when the flag is true. -/
theorem jeqJumpsWhenFlagTrue : Obligations.JeqJumpsWhenFlagTrue :=
  conditionalJumpRule_instrOf (k := .jeq) (by decide) rfl (fun _ _ _ => rfl) exec_jeq

/-- Settles O46: JNEQ is the conditional jump taken when the flag is false. -/
theorem jneqJumpsWhenFlagFalse : Obligations.JneqJumpsWhenFlagFalse :=
  conditionalJumpRule_instrOf (k := .jneq) (by decide) rfl (fun _ _ _ => rfl) exec_jneq

end Sys2Proof.Machine

/-!
HLT (spec/46_halt.md R170): its byte under every well-formed map, and its effect, which needs that one byte alone.
-/

namespace Sys2Proof.Machine

/-- The byte of HLT is fixed by the source, so it is the same under every well-formed map (R64). -/
theorem decodeOpcode_six {m : OpcodeMap} (hm : OpcodeMap.wf m = true) : decodeOpcode m 6 = some .hlt := by
  simp only [OpcodeMap.wf, Bool.and_eq_true, beq_iff_eq] at hm
  obtain ⟨⟨⟨-, hsix⟩, -⟩, -⟩ := hm
  exact hsix

theorem encodeOpcode_hlt {m : OpcodeMap} (hm : OpcodeMap.wf m = true) : encodeOpcode m .hlt = 6 :=
  encodeOpcode_of_decodeOpcode hm (decodeOpcode_six hm)

theorem assemble_hlt (m : OpcodeMap) : assemble m ⟨some .hlt, []⟩ = .ok [encodeOpcode m .hlt] :=
  assemble_eq_ok.2 ⟨.hlt, rfl, encode_eq_some.2 ⟨.hlt, rfl, rfl⟩⟩

theorem exec_hlt (s : State) : exec .hlt s = .next { s with pc := s.pc + 1, report := some (.halted .hlt) } := rfl

theorem step_of_six {s : State} (hs : s.cfg.wf = true) (h : s.progByte s.pc = some 6) :
    step s = .next { s with pc := s.pc + 1, report := some (.halted .hlt) } :=
  (step_of_fetch (fetch_of_hlt h (decodeOpcode_six (opcodeMap_wf_of_wf hs)))).trans (exec_hlt s)

/-- Settles O47: by the byte that every well-formed map gives HLT, by the meaning of HLT, and by the fetch, which takes any
bytes after the first or none. -/
theorem hltHaltsPastItsByte : Obligations.HltHaltsPastItsByte := by
  refine ⟨fun m rest hm => ⟨encodeOpcode_hlt hm, decode_hlt (decodeOpcode_six hm) rest, ?_⟩, exec_hlt, ?_⟩
  · rw [assemble_hlt, encodeOpcode_hlt hm]
  · exact fun s hs h => hostStep_eq_some.2 (.inl ⟨step_of_six hs h, rfl⟩)

end Sys2Proof.Machine

/-!
Exceptions (spec/60_exceptions.md): the causes of each fault (R180), the three halts (R181), the order in which a step
reports (R182), and what a fault leaves (R183).
-/

namespace Sys2Proof.Machine

/-! ## The causes of faults -/

/-- The instruction is a relative jump in range, and `t` is its exact target (R141, R142). -/
inductive RelativeTarget (s : State) : Instr → Int → Prop where
  | jmpf {s1 : Byte} {r : Fin 32} (s2 s3 : Byte) (h1 : s1.toNat = r) :
      RelativeTarget s (.jmpf s1 s2 s3) (s.pc + 2 + (s.reg r).toInt)
  | jmpb {s1 : Byte} {r : Fin 32} (s2 s3 : Byte) (h1 : s1.toNat = r) :
      RelativeTarget s (.jmpb s1 s2 s3) (s.pc + 2 - (s.reg r).toInt)

/-- The instruction is an absolute jump in range that is taken, to the value of the register `r` (R140, R160, R161). -/
inductive AbsoluteTarget (s : State) : Instr → Fin 32 → Prop where
  | jmp {s1 : Byte} {r : Fin 32} (s2 s3 : Byte) (h1 : s1.toNat = r) : AbsoluteTarget s (.jmp s1 s2 s3) r
  | jeq {s1 : Byte} {r : Fin 32} (s2 s3 : Byte) (h1 : s1.toNat = r) (taken : s.eqf = true) :
      AbsoluteTarget s (.jeq s1 s2 s3) r
  | jneq {s1 : Byte} {r : Fin 32} (s2 s3 : Byte) (h1 : s1.toNat = r) (taken : s.eqf = false) :
      AbsoluteTarget s (.jneq s1 s2 s3) r

/-- Everything that can make an instruction fault, with the fault it raises (R180). A truncated instruction is not here: it
is never executed. -/
inductive FaultCause (s : State) : Instr → Fault → Prop where
  | badSlot {i : Instr} {b : Byte} (used : b ∈ i.usedSlots) (bad : 32 ≤ b.toNat) :
      FaultCause s i (.registerOutOfRange b s.pc)
  | zeroDivisor {s1 s2 s3 : Byte} {r : Fin 32} (h2 : s2.toNat = r) (zero : (s.reg r).toInt = 0) :
      FaultCause s (.div s1 s2 s3) (.divideByZero s.pc)
  | relativeBelow {i : Instr} {t : Int} (target : RelativeTarget s i t) (below : t < 0) :
      FaultCause s i (.pcUnderflow t s.pc)
  | relativeAbove {i : Instr} {t : Int} (target : RelativeTarget s i t) (above : ((2 ^ s.cfg.pcBits : Nat) : Int) ≤ t) :
      FaultCause s i (.pcOverflow t s.pc)
  | absoluteBelow {i : Instr} {r : Fin 32} (target : AbsoluteTarget s i r) (below : (s.reg r).toInt < 0) :
      FaultCause s i (.negativeJumpTarget (s.reg r) s.pc)
  | absoluteAbove {i : Instr} {r : Fin 32} (target : AbsoluteTarget s i r)
      (above : ((2 ^ s.cfg.pcBits : Nat) : Int) ≤ (s.reg r).toInt) : FaultCause s i (.pcOverflow (s.reg r).toInt s.pc)

section
variable {i : Instr} {s : State} {f : Fault}

/-- A used slot's check faults for the slot, or as what follows it faults. -/
theorem withReg_faultCause {b : Byte} {k : Fin 32 → Result} (used : b ∈ i.usedSlots)
    (h : withReg b s k = .fault f) (hk : ∀ r : Fin 32, b.toNat = r → k r = .fault f → FaultCause s i f) :
    FaultCause s i f := by
  rcases withReg_cases b s k with ⟨bad, e⟩ | ⟨r, hr, e⟩ <;> rw [e] at h
  · cases h
    exact .badSlot used bad
  · exact hk r hr h

theorem absoluteJump_faultCause {r : Fin 32} (target : AbsoluteTarget s i r) (h : absoluteJump (s.reg r) s = .fault f) :
    FaultCause s i f := by
  rcases absoluteJump_cases (s.reg r) s with ⟨below, e⟩ | ⟨-, above, e⟩ | ⟨-, -, e⟩ <;> rw [e] at h <;> cases h
  · exact .absoluteBelow target below
  · exact .absoluteAbove target above

theorem relativeJump_faultCause {t : Int} (target : RelativeTarget s i t) (h : relativeJump t s = .fault f) :
    FaultCause s i f := by
  rcases relativeJump_cases t s with ⟨below, e⟩ | ⟨-, above, e⟩ | ⟨-, -, e⟩ <;> rw [e] at h <;> cases h
  · exact .relativeBelow target below
  · exact .relativeAbove target above

theorem compareWith_faultCause {cmp : Word → Word → Bool} {s1 s2 : Byte} (used : i.usedSlots = [s1, s2])
    (h : compareWith cmp s1 s2 s = .fault f) : FaultCause s i f :=
  withReg_faultCause (by simp [used]) h fun _ _ h => withReg_faultCause (by simp [used]) h fun _ _ => nofun

theorem arith_faultCause {op : Int → Int → Int} {s1 s2 s3 : Byte} (used : i.usedSlots = [s1, s2, s3])
    (h : arith op s1 s2 s3 s = .fault f) : FaultCause s i f :=
  withReg_faultCause (by simp [used]) h fun _ _ h => withReg_faultCause (by simp [used]) h fun _ _ h =>
    withReg_faultCause (by simp [used]) h fun _ _ => nofun

theorem execDiv_faultCause {s1 s2 s3 : Byte} (h : execDiv s1 s2 s3 s = .fault f) :
    FaultCause s (.div s1 s2 s3) f := by
  refine withReg_faultCause (by simp [Instr.usedSlots]) h fun _ _ h => ?_
  refine withReg_faultCause (by simp [Instr.usedSlots]) h fun r h2 h => ?_
  refine withReg_faultCause (by simp [Instr.usedSlots]) h fun _ _ h => ?_
  split_ifs at h with zero
  · cases h
    exact .zeroDivisor h2 zero
  · cases h

/-- A conditional jump faults for its slot, or, when taken, for its target. -/
theorem condJump_faultCause {taken : Bool} {s1 : Byte} (used : i.usedSlots = [s1])
    (target : ∀ r : Fin 32, s1.toNat = r → taken = true → AbsoluteTarget s i r) (h : condJump taken s1 s = .fault f) :
    FaultCause s i f := by
  refine withReg_faultCause (by simp [used]) h fun r h1 h => ?_
  cases taken with
  | false => cases h
  | true => exact absoluteJump_faultCause (target r h1 rfl) h

/-- Every fault an instruction raises has its cause (R180). -/
theorem exec_faultCause (h : exec i s = .fault f) : FaultCause s i f := by
  cases i with
  | load => exact withReg_faultCause (by simp [Instr.usedSlots]) h fun _ _ => nofun
  | add | sub | mul => exact arith_faultCause rfl h
  | div => exact execDiv_faultCause h
  | eq | neq | lt | gt | ltq | gtq => exact compareWith_faultCause rfl h
  | jmp => exact withReg_faultCause (by simp [Instr.usedSlots]) h fun _ h1 => absoluteJump_faultCause (.jmp _ _ h1)
  | jmpf => exact withReg_faultCause (by simp [Instr.usedSlots]) h fun _ h1 => relativeJump_faultCause (.jmpf _ _ h1)
  | jmpb => exact withReg_faultCause (by simp [Instr.usedSlots]) h fun _ h1 => relativeJump_faultCause (.jmpb _ _ h1)
  | jeq => exact condJump_faultCause rfl (fun _ h1 taken => .jeq _ _ h1 taken) h
  | jneq => exact condJump_faultCause rfl (fun _ h1 taken => .jneq _ _ h1 (by simpa using taken)) h
  | hlt | illegal => cases h

end

/-! ## The truncated fetch -/

/-- A fetch is truncated only at a four-byte opcode with fewer than four bytes left (R95). -/
theorem truncated_of_fetch {s : State} (h : fetch s = .error .truncated) :
    s.pc < s.len ∧ s.len < s.pc + 4 ∧
      ∃ op k, s.progByte s.pc = some op ∧ decodeOpcode s.cfg.opcodeMap op = some k ∧ k ≠ .hlt := by
  obtain ⟨op, rest, k, hbytes, hop, hk⟩ := decode_truncated (fetch_eq_error.1 h)
  have hbyte : s.progByte s.pc = some op := by
    have hfirst := s.bytesFrom_getElem 4 s.pc 0
    rw [← fetchBytes, hbytes] at hfirst
    exact hfirst.symm
  refine ⟨(s.progByte_isSome s.pc).1 (hbyte ▸ rfl), ?_, op, k, hbyte, hop, hk⟩
  by_contra hlen
  have hfetch := fetch_of_four_bytes hbyte hop hk (State.progByte_of_lt (by omega)) (State.progByte_of_lt (by omega))
    (State.progByte_of_lt (by omega))
  cases h.symm.trans hfetch

/-- Everything a faulting step can come from: a fetched instruction with a cause, or a truncated fetch. -/
theorem step_fault_cases {s : State} {f : Fault} (h : step s = .fault f) :
    (∃ i, fetch s = .ok i ∧ FaultCause s i f) ∨ (fetch s = .error .truncated ∧ f = .truncatedInstruction s.pc) := by
  rcases step_cases s with ⟨i, hfetch, e⟩ | ⟨-, e⟩ | ⟨hfetch, e⟩ <;> rw [e] at h
  · exact .inl ⟨i, hfetch, exec_faultCause h⟩
  · cases h
  · cases h
    exact .inr ⟨hfetch, rfl⟩

/-- A register's value reaches 2^PC_BITS only where PC_BITS is below 31. -/
theorem pcBits_lt_of_le_toInt {n : Nat} {v : Word} (h : ((2 ^ n : Nat) : Int) ≤ v.toInt) : n < 31 := by
  have hv : v.toInt < 2 ^ 31 := BitVec.toInt_lt
  exact (Nat.pow_lt_pow_iff_right (a := 2) (by decide)).1 (by omega)

/-- Settles O18, by the cause of the fault. -/
theorem faultsHaveTheirCauses : Obligations.FaultsHaveTheirCauses := by
  intro s f h
  refine ⟨addr_of_step_eq_fault h, ?_⟩
  rcases step_fault_cases h with ⟨i, hfetch, hcause⟩ | ⟨hfetch, rfl⟩
  · cases hcause with
    | badSlot used bad => exact ⟨i, hfetch, used, bad⟩
    | zeroDivisor h2 zero => exact ⟨_, _, _, _, hfetch, h2, word_toInt_eq_zero.1 zero⟩
    | relativeBelow target below =>
      refine ⟨below, ?_⟩
      cases target with
      | jmpf s2 s3 h1 => exact ⟨_, s2, s3, _, h1, .inl ⟨hfetch, rfl⟩⟩
      | jmpb s2 s3 h1 => exact ⟨_, s2, s3, _, h1, .inr ⟨hfetch, rfl⟩⟩
    | relativeAbove target above =>
      refine ⟨by exact_mod_cast above, ?_⟩
      cases target with
      | jmpf s2 s3 h1 => exact ⟨_, s2, s3, _, h1, .inl ⟨hfetch, rfl⟩⟩
      | jmpb s2 s3 h1 => exact ⟨_, s2, s3, _, h1, .inr (.inl ⟨hfetch, rfl⟩)⟩
    | absoluteBelow target below =>
      refine ⟨below, ?_⟩
      cases target with
      | jmp s2 s3 h1 => exact ⟨_, s2, s3, _, h1, rfl, .inl hfetch⟩
      | jeq s2 s3 h1 taken => exact ⟨_, s2, s3, _, h1, rfl, .inr (.inl ⟨hfetch, taken⟩)⟩
      | jneq s2 s3 h1 taken => exact ⟨_, s2, s3, _, h1, rfl, .inr (.inr ⟨hfetch, taken⟩)⟩
    | absoluteAbove target above =>
      have hbits := pcBits_lt_of_le_toInt above
      refine ⟨by exact_mod_cast above, ?_⟩
      cases target with
      | jmp s2 s3 h1 => exact ⟨_, s2, s3, _, h1, .inr (.inr ⟨rfl, hbits, .inl hfetch⟩)⟩
      | jeq s2 s3 h1 taken => exact ⟨_, s2, s3, _, h1, .inr (.inr ⟨rfl, hbits, .inr (.inl ⟨hfetch, taken⟩)⟩)⟩
      | jneq s2 s3 h1 taken => exact ⟨_, s2, s3, _, h1, .inr (.inr ⟨rfl, hbits, .inr (.inr ⟨hfetch, taken⟩)⟩)⟩
  · exact truncated_of_fetch hfetch

/-- Settles O19: the host's view of a faulting step. -/
theorem faultChangesNothing : Obligations.FaultChangesNothing := fun _ _ h => hostStep_eq_faulted.2 ⟨h, rfl⟩

/-! ## The order of events -/

/-- Once its used slots have passed the check, an instruction can only raise its operation's own faults (R182). -/
theorem FaultCause.code_of_slots {i : Instr} {s : State} {f : Fault} (h : FaultCause s i f)
    (hslots : i.usedSlots.find? (fun b => decide (32 ≤ b.toNat)) = none) :
    f.code = 1 ∨ f.code = 3 ∨ f.code = 4 ∨ f.code = 6 := by
  cases h with
  | badSlot used bad => exact absurd (decide_eq_true bad) (List.find?_eq_none.1 hslots _ used)
  | zeroDivisor => exact .inl rfl
  | relativeBelow => exact .inr (.inl rfl)
  | absoluteBelow => exact .inr (.inr (.inl rfl))
  | relativeAbove | absoluteAbove => exact .inr (.inr (.inr rfl))

/-- Settles O17: what the fetch finds decides the first four clauses, the range check of used slots the others. -/
theorem eventPriority : Obligations.EventPriority := by
  intro s
  refine ⟨step_of_end, fun op hbyte => ⟨fun hop => ?_, fun hop => ?_, fun k hop hk => ⟨fun hlen => ?_, ?_⟩⟩⟩
  · exact step_of_fetch (fetch_of_unmapped hbyte hop)
  · exact step_of_fetch (fetch_of_hlt hbyte hop)
  · exact step_of_truncated hbyte hop hk (by omega)
  · intro b1 b2 b3 h1 h2 h3
    have hstep : step s = exec (instrOf k b1 b2 b3) s := step_of_fetch (fetch_of_four_bytes hbyte hop hk h1 h2 h3)
    refine ⟨fun b hbad => hstep.trans (exec_of_badSlot hbad s), fun hslots => ⟨hstep, fun f hf => ?_⟩⟩
    exact (exec_faultCause (hstep.symm.trans hf)).code_of_slots hslots

/-! ## Halts -/

/-- The fetch finds no byte only at or beyond the buffer's end (R92). -/
theorem end_of_fetch {s : State} (h : fetch s = .error .noByte) : s.len ≤ s.pc := by
  have hbytes : fetchBytes s = [] := by
    rcases decode_cases s.cfg.opcodeMap (fetchBytes s) with ⟨hnil, -⟩ | ⟨op, rest, -, hcase⟩
    · exact hnil
    · rcases hcase with ⟨-, e⟩ | ⟨-, e⟩ | ⟨k, -, -, -, e⟩ | ⟨k, b1, b2, b3, rest', -, -, -, e⟩ <;>
        cases e.symm.trans (fetch_eq_error.1 h)
  have hlen : (fetchBytes s).length = min 4 (s.len - s.pc) := s.bytesFrom_length 4 s.pc
  rw [hbytes, List.length_nil] at hlen
  omega

/-- No instruction but HLT and ILLEGAL halts: each of the others that answers a next state goes on. -/
theorem exec_next_halted {i : Instr} {s t : State} {reason : HaltReason} (h : exec i s = .next t)
    (hreport : t.report = some (.halted reason)) : i = .hlt ∨ ∃ op, i = .illegal op := by
  cases i with
  | hlt => exact .inl rfl
  | illegal op => exact .inr ⟨op, rfl⟩
  | load =>
    obtain ⟨d, -, rfl⟩ := execLoad_next h
    cases hreport
  | add | sub | mul =>
    obtain ⟨r1, r2, r3, -, -, -, rfl⟩ := arith_next h
    cases hreport
  | div =>
    obtain ⟨r1, r2, r3, -, -, -, -, rfl⟩ := execDiv_next h
    cases hreport
  | jmp =>
    obtain ⟨r, -, hjump⟩ := withReg_next h
    obtain ⟨-, -, rfl⟩ := absoluteJump_next hjump
    cases hreport
  | jmpf | jmpb =>
    obtain ⟨r, -, hjump⟩ := withReg_next h
    obtain ⟨-, -, rfl⟩ := relativeJump_next hjump
    cases hreport
  | eq | neq | lt | gt | ltq | gtq =>
    obtain ⟨r1, r2, -, -, rfl⟩ := compareWith_next h
    cases hreport
  | jeq | jneq =>
    obtain ⟨r, -, ⟨-, -, -, rfl⟩ | ⟨-, rfl⟩⟩ := condJump_next h <;> cases hreport

/-- Everything a halting step can be (R181). -/
theorem step_next_halted {s t : State} {reason : HaltReason} (h : step s = .next t)
    (hreport : t.report = some (.halted reason)) :
    (fetch s = .ok .hlt ∧ haltAt .hlt (s.pc + 1) s = .next t) ∨
    (s.len ≤ s.pc ∧ haltAt .endOfBuffer s.pc s = .next t) ∨
    ∃ op, fetch s = .ok (.illegal op) ∧ haltAt (.illegal op) (s.pc + 1) s = .next t := by
  rcases step_cases s with ⟨i, hfetch, e⟩ | ⟨hfetch, e⟩ | ⟨-, e⟩ <;> rw [e] at h
  · rcases exec_next_halted h hreport with rfl | ⟨op, rfl⟩
    · exact .inl ⟨hfetch, h⟩
    · exact .inr (.inr ⟨op, hfetch, h⟩)
  · exact .inr (.inl ⟨end_of_fetch hfetch, h⟩)
  · cases h

/-- The host is told of a halt exactly when the step's next state reports it. -/
theorem hostStep_eq_halted {s t : State} {reason : HaltReason} :
    hostStep s = some (.halted reason, t) ↔ step s = .next t ∧ t.report = some (.halted reason) := by
  rw [hostStep_eq_some]
  exact or_iff_left fun ⟨_, _, hreport, _⟩ => nomatch hreport

/-- Settles O21: of the three halting steps only one reports the reason, and each case is such a step. -/
theorem haltsExactlyWhen : Obligations.HaltsExactlyWhen := by
  intro s t reason
  rw [hostStep_eq_halted]
  constructor
  · rintro ⟨hstep, hreport⟩
    rcases step_next_halted hstep hreport with ⟨hcase, h⟩ | ⟨hcase, h⟩ | ⟨op, hcase, h⟩ <;>
    · rw [haltAt_eq_next] at h
      subst h
      cases hreport
      exact ⟨hcase, rfl⟩
  · cases reason with
    | hlt =>
      rintro ⟨hfetch, rfl⟩
      exact ⟨step_of_fetch hfetch, rfl⟩
    | endOfBuffer =>
      rintro ⟨hend, rfl⟩
      exact ⟨step_of_end hend, rfl⟩
    | illegal op =>
      rintro ⟨hfetch, rfl⟩
      exact ⟨step_of_fetch hfetch, rfl⟩

end Sys2Proof.Machine

/-!
Reset (spec/70_reset_and_hazards.md): the values of a new engine (R200), which meets the invariant, and the clean launch that
appending a program to it gives (R202, R204).
-/

namespace Sys2Proof.Machine

/-! ## The new engine -/

/-- A new engine's buffer is empty and its program counter is 0, which is below every 2^PC_BITS. -/
theorem create_inv {cfg : Config} (h : cfg.wf = true) : (State.create cfg).Inv where
  cfg_wf := h
  prog_wf := ⟨.nil, nofun⟩
  prog_below_len := nofun
  len_le := Nat.zero_le _
  pc_lt := Nat.two_pow_pos _

/-- Settles O27: the reset state is the new engine under the default parameters, which are well-formed. -/
theorem newEngineMeetsInvariant : Obligations.NewEngineMeetsInvariant :=
  ⟨create_inv (by decide), fun _ => create_inv⟩

/-- Settles O28, field by field. -/
theorem resetValues : Obligations.ResetValues := fun cfg =>
  ⟨State.reg_create cfg, State.create_eqf cfg, State.create_len cfg, State.progByte_create cfg, State.create_pc cfg,
    State.create_rem cfg, rfl⟩

/-! ## Launching a program -/

/-- Bytes that fit in the capacity are all accepted, and the invariant is kept (R44, R100). -/
theorem appendBytes_of_fits : ∀ {bs : List Byte} {s : State}, s.Inv → s.len + bs.length ≤ s.cfg.maxProgramLen →
    ∃ t, appendBytes bs s = (.ok, t) ∧ t.Inv
  | [], s, hs, _ => ⟨s, rfl, hs⟩
  | b :: bs, s, hs, hfits => by
    rw [List.length_cons] at hfits
    have hbyte : appendByte b s = (.ok, s.placeByte s.len b) := if_pos (by omega)
    have hplaced : (s.placeByte s.len b).Inv := by
      have hkept := appendByte_inv hs b
      rwa [hbyte] at hkept
    rw [appendBytes, hbyte]
    refine appendBytes_of_fits hplaced ?_
    rw [State.placeByte_len_self, State.placeByte_cfg]
    omega

/-- A program appended to a new engine is all that its buffer holds, and nothing else has changed (R204). -/
theorem cleanLaunch_of_appended {cfg : Config} {P : List Byte} {t : State} (h : Appended P (State.create cfg) t) :
    CleanLaunch P t where
  regs r := by
    rw [h.frame]
    exact State.reg_create cfg r
  rem := by rw [h.frame, State.create_rem]
  eqf := by rw [h.frame, State.create_eqf]
  pc := by rw [h.pc, State.create_pc]
  len := by rw [h.len, State.create_len, Nat.zero_add]
  bytes a := by simpa using h.new a
  noFault f := by
    rw [h.frame]
    nofun

/-- Settles O55: the bytes fit, so every append is accepted, and what is appended to a new engine is a clean launch. -/
theorem bootGivesCleanLaunch : Obligations.BootGivesCleanLaunch := by
  intro cfg P hcfg hfits
  have hnew : (State.create cfg).Inv := create_inv hcfg
  obtain ⟨t, happend, ht⟩ := appendBytes_of_fits (bs := P) hnew (by simpa using hfits)
  exact ⟨t, happend, cleanLaunch_of_appended (appendBytes_appended hnew.prog_wf happend), ht⟩

end Sys2Proof.Machine
